-- ==== Sys2Proof/Word.lean ====
section
/-! DEFINITION. The widths of the ruchip8 core: bytes, 16-bit words, opcode fields (00_scope.md R6, R12, R14; 30_encoding.md R58). -/

namespace Sys2Proof

/-- An 8-bit value: a memory cell, a general register, a timer (R6, R12, R22). -/
abbrev Byte := BitVec 8

/-- A 16-bit value: `PC`, `I`, a stack entry, an opcode (R12, R56). -/
abbrev Word := BitVec 16

/-- A 4-bit opcode field: `X`, `Y`, `N`; also a register number or a key code (R14, R58, R31, R114). -/
abbrev Nibble := BitVec 4

/-- The 12-bit address immediate `NNN` (R58). -/
abbrev Addr12 := BitVec 12

end Sys2Proof
end

