-- ==== Sys2Proof/Syntax.lean ====
section
/-! DEFINITION. The instructions: one constructor per row of the opcode map (30_encoding.md R62), in the table's order. -/

namespace Sys2Proof

/-- The 34 instructions (R62). An operand has the width of its opcode field (R58), so every value of an operand is one its
encoding admits. -/
inductive Instr where
  /-- `00E0` CLS (R103) -/
  | cls
  /-- `00EE` RET (R73) -/
  | ret
  /-- `1NNN` JP NNN (R74) -/
  | jp (nnn : Addr12)
  /-- `2NNN` CALL NNN (R75) -/
  | call (nnn : Addr12)
  /-- `3XNN` SE Vx,NN (R76) -/
  | seImm (x : Nibble) (nn : Byte)
  /-- `4XNN` SNE Vx,NN (R77) -/
  | sneImm (x : Nibble) (nn : Byte)
  /-- `5XY0` SE Vx,Vy (R78) -/
  | seReg (x y : Nibble)
  /-- `6XNN` LD Vx,NN (R84) -/
  | ldImm (x : Nibble) (nn : Byte)
  /-- `7XNN` ADD Vx,NN (R85) -/
  | addImm (x : Nibble) (nn : Byte)
  /-- `8XY0` LD Vx,Vy (R86) -/
  | ldReg (x y : Nibble)
  /-- `8XY1` OR Vx,Vy (R87) -/
  | orReg (x y : Nibble)
  /-- `8XY2` AND Vx,Vy (R88) -/
  | andReg (x y : Nibble)
  /-- `8XY3` XOR Vx,Vy (R89) -/
  | xorReg (x y : Nibble)
  /-- `8XY4` ADD Vx,Vy (R90) -/
  | addReg (x y : Nibble)
  /-- `8XY5` SUB Vx,Vy (R91) -/
  | sub (x y : Nibble)
  /-- `8XY6` SHR Vx,Vy (R92) -/
  | shr (x y : Nibble)
  /-- `8XY7` SUBN Vx,Vy (R93) -/
  | subn (x y : Nibble)
  /-- `8XYE` SHL Vx,Vy (R94) -/
  | shl (x y : Nibble)
  /-- `9XY0` SNE Vx,Vy (R79) -/
  | sneReg (x y : Nibble)
  /-- `ANNN` LD I,NNN (R97) -/
  | ldI (nnn : Addr12)
  /-- `BNNN` JP V0,NNN (R80) -/
  | jpV0 (nnn : Addr12)
  /-- `CXNN` RND Vx,NN (R95) -/
  | rnd (x : Nibble) (nn : Byte)
  /-- `DXYN` DRW Vx,Vy,N (R104) -/
  | drw (x y n : Nibble)
  /-- `EX9E` SKP Vx (R105) -/
  | skp (x : Nibble)
  /-- `EXA1` SKNP Vx (R106) -/
  | sknp (x : Nibble)
  /-- `FX07` LD Vx,DT (R107) -/
  | ldVxDt (x : Nibble)
  /-- `FX0A` LD Vx,K (R108) -/
  | ldVxK (x : Nibble)
  /-- `FX15` LD DT,Vx (R109) -/
  | ldDtVx (x : Nibble)
  /-- `FX18` LD ST,Vx (R110) -/
  | ldStVx (x : Nibble)
  /-- `FX1E` ADD I,Vx (R98) -/
  | addI (x : Nibble)
  /-- `FX29` LD F,Vx (R99) -/
  | ldF (x : Nibble)
  /-- `FX33` LD B,Vx (R100) -/
  | ldB (x : Nibble)
  /-- `FX55` LD [I],Vx (R101) -/
  | storeRegs (x : Nibble)
  /-- `FX65` LD Vx,[I] (R102) -/
  | loadRegs (x : Nibble)
  deriving DecidableEq, Repr

end Sys2Proof
end

