-- ==== Sys2Proof/WellFormed.lean ====
section
/-! DEFINITION. Which 16-bit words are instructions: the opcode map as a table of masks and patterns (30_encoding.md R61 to R64),
apart from the decoder, so that the two can be compared. An `Instr` needs no check of its own: each operand has its field's width. -/

namespace Sys2Proof

/-- One row of the opcode map: `op` matches it exactly when `op &&& mask = pattern`; the mask holds the literal nibbles (R62, R63). -/
structure OpcodeRow where
  mnemonic : String
  pattern : Word
  mask : Word
  deriving DecidableEq, Repr

/-- The rows of R62 for the families `0` to `7`. -/
def opcodeRowsLow : List OpcodeRow :=
  [⟨"CLS", 0x00E0, 0xFFFF⟩, ⟨"RET", 0x00EE, 0xFFFF⟩, ⟨"JP_NNN", 0x1000, 0xF000⟩, ⟨"CALL_NNN", 0x2000, 0xF000⟩,
   ⟨"SE_Vx_NN", 0x3000, 0xF000⟩, ⟨"SNE_Vx_NN", 0x4000, 0xF000⟩, ⟨"SE_Vx_Vy", 0x5000, 0xF00F⟩,
   ⟨"LD_Vx_NN", 0x6000, 0xF000⟩, ⟨"ADD_Vx_NN", 0x7000, 0xF000⟩]

/-- The rows of R62 for the families `8` and `9`. -/
def opcodeRowsAlu : List OpcodeRow :=
  [⟨"LD_Vx_Vy", 0x8000, 0xF00F⟩, ⟨"OR_Vx_Vy", 0x8001, 0xF00F⟩, ⟨"AND_Vx_Vy", 0x8002, 0xF00F⟩,
   ⟨"XOR_Vx_Vy", 0x8003, 0xF00F⟩, ⟨"ADD_Vx_Vy", 0x8004, 0xF00F⟩, ⟨"SUB_Vx_Vy", 0x8005, 0xF00F⟩,
   ⟨"SHR_Vx__Vy", 0x8006, 0xF00F⟩, ⟨"SUBN_Vx_Vy", 0x8007, 0xF00F⟩, ⟨"SHL_Vx__Vy", 0x800E, 0xF00F⟩,
   ⟨"SNE_Vx_Vy", 0x9000, 0xF00F⟩]

/-- The rows of R62 for the families `A` to `F`. -/
def opcodeRowsHigh : List OpcodeRow :=
  [⟨"LD_I_NNN", 0xA000, 0xF000⟩, ⟨"JP_V0_NNN", 0xB000, 0xF000⟩, ⟨"RND_Vx_NN", 0xC000, 0xF000⟩,
   ⟨"DRW_Vx_Vy_N", 0xD000, 0xF000⟩, ⟨"SKP_Vx", 0xE09E, 0xF0FF⟩, ⟨"SKNP_Vx", 0xE0A1, 0xF0FF⟩,
   ⟨"LD_Vx_DT", 0xF007, 0xF0FF⟩, ⟨"LD_Vx_K", 0xF00A, 0xF0FF⟩, ⟨"LD_DT_Vx", 0xF015, 0xF0FF⟩,
   ⟨"LD_ST_Vx", 0xF018, 0xF0FF⟩, ⟨"ADD_I_Vx", 0xF01E, 0xF0FF⟩, ⟨"LD_F_Vx", 0xF029, 0xF0FF⟩,
   ⟨"LD_B_Vx", 0xF033, 0xF0FF⟩, ⟨"LD__I__Vx", 0xF055, 0xF0FF⟩, ⟨"LD_Vx__I", 0xF065, 0xF0FF⟩]

/-- The whole opcode map (R62). -/
def opcodeMap : List OpcodeRow := opcodeRowsLow ++ opcodeRowsAlu ++ opcodeRowsHigh

/-- A word matches a row when its literal nibbles are the row's (R63). -/
def OpcodeRow.matchesWord (r : OpcodeRow) (op : Word) : Bool := op &&& r.mask == r.pattern

/-- The row a word matches, if any; at most one does (R61). -/
def rowOf (op : Word) : Option OpcodeRow := opcodeMap.find? (·.matchesWord op)

/-- The word is an instruction: some row of R62 matches it (R60, R63). -/
def wordWellFormed (op : Word) : Bool := opcodeMap.any (·.matchesWord op)

end Sys2Proof
end

