-- ==== Sys2Proof/Decode.lean ====
section
/-! DEFINITION. The decoder (30_encoding.md R56 to R65), total on every word and every byte sequence, and the encoder beside it. -/

namespace Sys2Proof

/-- Why bytes are no instruction. -/
inductive DecodeError where
  /-- The word matches no row of the opcode map (R63, R64); `step` turns it into `UnimplementedOpcode`, with the pc. -/
  | unimplementedOpcode (op : Word)
  /-- Fewer than the two bytes every instruction has (R56); `step` never sees it, since a fetch reads both bytes or raises. -/
  | truncated
  deriving DecidableEq, Repr

/-- `N1 = op[15:12]`, the family (R58). -/
def fieldN1 (op : Word) : Nibble := op.extractLsb' 12 4

/-- `X = op[11:8]` (R58). -/
def fieldX (op : Word) : Nibble := op.extractLsb' 8 4

/-- `Y = op[7:4]` (R58). -/
def fieldY (op : Word) : Nibble := op.extractLsb' 4 4

/-- `N = op[3:0]` (R58). -/
def fieldN (op : Word) : Nibble := op.extractLsb' 0 4

/-- `NN = op[7:0]` (R58). -/
def fieldNN (op : Word) : Byte := op.extractLsb' 0 8

/-- `NNN = op[11:0]` (R58). -/
def fieldNNN (op : Word) : Addr12 := op.extractLsb' 0 12

/-- Family `0`: the two words `00E0` and `00EE` and no other (R63). -/
def decodeFamily0 (op : Word) : Except DecodeError Instr :=
  match fieldNNN op with
  | 0x0E0#12 => .ok .cls
  | 0x0EE#12 => .ok .ret
  | _ => .error (.unimplementedOpcode op)

/-- Family `8`: the register-to-register group, by its fourth nibble (R62). -/
def decodeFamily8 (op : Word) : Except DecodeError Instr :=
  match fieldN op with
  | 0x0#4 => .ok (.ldReg (fieldX op) (fieldY op))
  | 0x1#4 => .ok (.orReg (fieldX op) (fieldY op))
  | 0x2#4 => .ok (.andReg (fieldX op) (fieldY op))
  | 0x3#4 => .ok (.xorReg (fieldX op) (fieldY op))
  | 0x4#4 => .ok (.addReg (fieldX op) (fieldY op))
  | 0x5#4 => .ok (.sub (fieldX op) (fieldY op))
  | 0x6#4 => .ok (.shr (fieldX op) (fieldY op))
  | 0x7#4 => .ok (.subn (fieldX op) (fieldY op))
  | 0xE#4 => .ok (.shl (fieldX op) (fieldY op))
  | _ => .error (.unimplementedOpcode op)

/-- Family `E`: the keypad skips, by their low byte (R62, R63). -/
def decodeFamilyE (op : Word) : Except DecodeError Instr :=
  match fieldNN op with
  | 0x9E#8 => .ok (.skp (fieldX op))
  | 0xA1#8 => .ok (.sknp (fieldX op))
  | _ => .error (.unimplementedOpcode op)

/-- Family `F`, by its low byte (R62, R63). -/
def decodeFamilyF (op : Word) : Except DecodeError Instr :=
  match fieldNN op with
  | 0x07#8 => .ok (.ldVxDt (fieldX op))
  | 0x0A#8 => .ok (.ldVxK (fieldX op))
  | 0x15#8 => .ok (.ldDtVx (fieldX op))
  | 0x18#8 => .ok (.ldStVx (fieldX op))
  | 0x1E#8 => .ok (.addI (fieldX op))
  | 0x29#8 => .ok (.ldF (fieldX op))
  | 0x33#8 => .ok (.ldB (fieldX op))
  | 0x55#8 => .ok (.storeRegs (fieldX op))
  | 0x65#8 => .ok (.loadRegs (fieldX op))
  | _ => .error (.unimplementedOpcode op)

/-- The decoder: a pure function of the word (R60), one instruction or a rejection by name (R61). -/
def decodeWord (op : Word) : Except DecodeError Instr :=
  match fieldN1 op with
  | 0x0#4 => decodeFamily0 op
  | 0x1#4 => .ok (.jp (fieldNNN op))
  | 0x2#4 => .ok (.call (fieldNNN op))
  | 0x3#4 => .ok (.seImm (fieldX op) (fieldNN op))
  | 0x4#4 => .ok (.sneImm (fieldX op) (fieldNN op))
  | 0x5#4 => if fieldN op = 0 then .ok (.seReg (fieldX op) (fieldY op)) else .error (.unimplementedOpcode op)
  | 0x6#4 => .ok (.ldImm (fieldX op) (fieldNN op))
  | 0x7#4 => .ok (.addImm (fieldX op) (fieldNN op))
  | 0x8#4 => decodeFamily8 op
  | 0x9#4 => if fieldN op = 0 then .ok (.sneReg (fieldX op) (fieldY op)) else .error (.unimplementedOpcode op)
  | 0xA#4 => .ok (.ldI (fieldNNN op))
  | 0xB#4 => .ok (.jpV0 (fieldNNN op))
  | 0xC#4 => .ok (.rnd (fieldX op) (fieldNN op))
  | 0xD#4 => .ok (.drw (fieldX op) (fieldY op) (fieldN op))
  | 0xE#4 => decodeFamilyE op
  | _ => decodeFamilyF op

/-- Two bytes, the first the more significant (big-endian, R41, R57). -/
def bigEndian (hi lo : Byte) : Word := hi ++ lo

/-- Decode the first instruction of a byte sequence; answers it with the rest (R56, R57). -/
def decodeBytes : List Byte → Except DecodeError (Instr × List Byte)
  | hi :: lo :: rest =>
    match decodeWord (bigEndian hi lo) with
    | .ok i => .ok (i, rest)
    | .error e => .error e
  | _ => .error .truncated

/-! ## The encoder, from the patterns of R62 -/

/-- A word `PNNN`. -/
def wordNNN (p : Nibble) (nnn : Addr12) : Word := p ++ nnn

/-- A word `PXNN`. -/
def wordXNN (p x : Nibble) (nn : Byte) : Word := (p ++ x) ++ nn

/-- A word `PXYN`. -/
def wordXYN (p x y n : Nibble) : Word := (p ++ x) ++ (y ++ n)

/-- The word of an instruction (R62). -/
def encode : Instr → Word
  | .cls => 0x00E0
  | .ret => 0x00EE
  | .jp nnn => wordNNN 0x1 nnn
  | .call nnn => wordNNN 0x2 nnn
  | .seImm x nn => wordXNN 0x3 x nn
  | .sneImm x nn => wordXNN 0x4 x nn
  | .seReg x y => wordXYN 0x5 x y 0x0
  | .ldImm x nn => wordXNN 0x6 x nn
  | .addImm x nn => wordXNN 0x7 x nn
  | .ldReg x y => wordXYN 0x8 x y 0x0
  | .orReg x y => wordXYN 0x8 x y 0x1
  | .andReg x y => wordXYN 0x8 x y 0x2
  | .xorReg x y => wordXYN 0x8 x y 0x3
  | .addReg x y => wordXYN 0x8 x y 0x4
  | .sub x y => wordXYN 0x8 x y 0x5
  | .shr x y => wordXYN 0x8 x y 0x6
  | .subn x y => wordXYN 0x8 x y 0x7
  | .shl x y => wordXYN 0x8 x y 0xE
  | .sneReg x y => wordXYN 0x9 x y 0x0
  | .ldI nnn => wordNNN 0xA nnn
  | .jpV0 nnn => wordNNN 0xB nnn
  | .rnd x nn => wordXNN 0xC x nn
  | .drw x y n => wordXYN 0xD x y n
  | .skp x => wordXNN 0xE x 0x9E
  | .sknp x => wordXNN 0xE x 0xA1
  | .ldVxDt x => wordXNN 0xF x 0x07
  | .ldVxK x => wordXNN 0xF x 0x0A
  | .ldDtVx x => wordXNN 0xF x 0x15
  | .ldStVx x => wordXNN 0xF x 0x18
  | .addI x => wordXNN 0xF x 0x1E
  | .ldF x => wordXNN 0xF x 0x29
  | .ldB x => wordXNN 0xF x 0x33
  | .storeRegs x => wordXNN 0xF x 0x55
  | .loadRegs x => wordXNN 0xF x 0x65

/-- The bytes of an instruction as memory holds them (R41). -/
def encodeBytes (i : Instr) : List Byte := [(encode i).extractLsb' 8 8, (encode i).extractLsb' 0 8]

/-! ## Words numbered as the opcode table numbers them -/

/-- The word whose low `nbits` bits are `w`'s and whose other bits are 0; the table's bit 0 is the word's least significant bit. -/
def tableWord (nbits w : Nat) : Word := BitVec.ofNat 16 (w % 2 ^ nbits)

/-- The two bytes of that word in memory order. -/
def tableBytes (nbits w : Nat) : List Byte := [(tableWord nbits w).extractLsb' 8 8, (tableWord nbits w).extractLsb' 0 8]

/-- The instruction the decoder reads from a table word laid out in memory order; none where it refuses. -/
def decodeTableWord (nbits w : Nat) : Option Instr :=
  match decodeBytes (tableBytes nbits w) with
  | .ok (i, _) => some i
  | .error _ => none

end Sys2Proof
end

