-- ==== Sys2Proof/Config.lean ====
section
/-! DEFINITION. The implementation parameters of 00_scope.md section 3, and the free values: the host answers the spec leaves to any value. -/

namespace Sys2Proof.Config

/-- `MEM_SIZE` (R5). -/
def memSize : Nat := 4096

/-- `STACK_DEPTH` (R7). -/
def stackDepth : Nat := 16

/-- `LOAD_ADDR` (R8). -/
def loadAddr : Nat := 0x200

/-- `GLYPH_BYTES` (R9). -/
def glyphBytes : Nat := 5

/-- `DISPLAY_W` (R10). -/
def displayW : Nat := 64

/-- `DISPLAY_H` (R10). -/
def displayH : Nat := 32

/-- FREE VALUE: the byte the Randomness Source answers at the given count of host calls, where no answer is
queued (R95, R135, D27: "any value 0 to 255 per call"). Log 2. -/
opaque freeByte : Nat → Byte

/-- FREE VALUE: whether the Keypad Source answers "pressed" at the given count of host calls for the given key code,
where no answer is queued; key codes above 15 included (R105, R134, D10, D28: "any Boolean"). Log 2. -/
opaque freePressed : Nat → Byte → Bool

/-- FREE VALUE: the collision the Display Sink answers at the given count of host calls for a draw at column, row, of these
row bytes, where no answer is queued (R104, R133, D28: "any Boolean"). Log 2. -/
opaque freeCollision : Nat → Nat → Nat → List Byte → Bool

end Sys2Proof.Config
end

