-- ==== Sys2Proof/Machine/Font.lean ====
section
/-! DEFINITION. The font constant and the contents memory has after construction (20_memory.md R47, R48; 70_reset_and_hazards.md R141). -/

namespace Sys2Proof.Machine

/-- Glyphs `0` to `7`, five bytes each, top row first (R47; the bytes are the spec's G3). -/
def fontLow : List Byte :=
  [0xF0, 0x90, 0x90, 0x90, 0xF0,
   0x20, 0x60, 0x20, 0x20, 0x70,
   0xF0, 0x10, 0xF0, 0x80, 0xF0,
   0xF0, 0x10, 0xF0, 0x10, 0xF0,
   0x90, 0x90, 0xF0, 0x10, 0x10,
   0xF0, 0x80, 0xF0, 0x10, 0xF0,
   0xF0, 0x80, 0xF0, 0x90, 0xF0,
   0xF0, 0x10, 0x20, 0x40, 0x40]

/-- Glyphs `8` to `F` (R47, G3). -/
def fontHigh : List Byte :=
  [0xF0, 0x90, 0xF0, 0x90, 0xF0,
   0xF0, 0x90, 0xF0, 0x10, 0xF0,
   0xF0, 0x90, 0xF0, 0x90, 0x90,
   0xE0, 0x90, 0xE0, 0x90, 0xE0,
   0xF0, 0x80, 0x80, 0x80, 0xF0,
   0xE0, 0x90, 0x90, 0x90, 0xE0,
   0xF0, 0x80, 0xF0, 0x80, 0xF0,
   0xF0, 0x80, 0xF0, 0x80, 0x80]

/-- The 80 bytes of the font (R47): an immutable constant; memory holds a copy of it (R49). -/
def font : List Byte := fontLow ++ fontHigh

/-- What the cell at an address holds after construction: the font at 0x000 to 0x04F, 0x00 elsewhere (R22, R141, C7). This is
what an address that memory does not list reads as (log 6). -/
def resetByte (a : Nat) : Byte := font.getD a 0

end Sys2Proof.Machine
end

