-- ==== Sys2Proof/Machine/State.lean ====
section
/-! DEFINITION. The Machine State (10_state.md R21 to R36), the errors of a step (60_exceptions.md R117), and the state after
construction (70_reset_and_hazards.md R141). Plain data. -/

namespace Sys2Proof.Machine

/-- The reasons a step raises an error: exactly four kinds (R117). Each leaves the state as it was (R125). -/
inductive Fault where
  /-- Code 1: the decoder found no row for the fetched word; `pc` is the word's address (R118). Raised by `step`. Safe: the
  spec's own error. -/
  | unimplementedOpcode (opcode pc : Word)
  /-- Code 2: RET with an empty stack (R119). Raised by `execRet`. Safe: the spec's own error. -/
  | stackUnderflow
  /-- Code 3: CALL with a full stack (R120). Raised by `execCall`. Safe: the spec's own error. -/
  | stackOverflow
  /-- Code 4: an access outside `[0, 4096)`; `address` is its lowest address that is out (R121). Raised by `boundsCheck` in the
  fetch, DRW, LD B, LD [I] and LD Vx,[I]. Safe: the spec's own error. The address is the integer the checker found (R38, R39);
  that it lies in 4096 to 0xFFFF is proved, not forced by its type (log 15). -/
  | outOfBounds (address : Nat)
  deriving DecidableEq, Repr

/-- The reasons the model has no meaning for an instruction. -/
inductive Refusal where
  /-- An instruction that has no meaning yet: raised by an arm of `exec` only. Safe. No arm raises it. -/
  | notModelled (mnemonic : String)
  deriving DecidableEq, Repr

/-- The blocked-input state `BLK` (R31, R111). -/
inductive Blk where
  | running
  | awaitingKey (r : Nibble)
  deriving DecidableEq, Repr

/-- A call the core makes to a host collaborator during a step (R19, R133 to R135). -/
inductive HostCall where
  /-- `Display.clear()` (R103) -/
  | clear
  /-- `Display.draw(x, y, rows)` (R104) -/
  | draw (x y : Nat) (rows : List Byte)
  /-- `Keypad.is_pressed(k)` (R105, R106) -/
  | isPressed (key : Byte)
  /-- `Rng.byte()` (R95) -/
  | rngByte
  deriving DecidableEq, Repr

/-- The MODEL's own fields, not the spec's state: what crosses the boundary to the host collaborators (R19; logs 2, 3, 4). -/
structure Ports where
  /-- the host calls made so far, newest first; how many there are is the counter the free values are read at -/
  calls : List HostCall
  /-- bytes the Randomness Source will answer, oldest first; when there is none the answer is a free value -/
  rng : List Byte
  /-- answers the Keypad Source will give, oldest first; when there is none the answer is a free value -/
  keys : List Bool
  /-- collisions the Display Sink will report, oldest first; when there is none the answer is a free value -/
  collisions : List Bool
  deriving DecidableEq, Repr

/-- Memory: the cells that differ from their reset contents, as address and byte, addresses rising (R22, R37; log 6). -/
abbrev Memory := List Host.Cell

/-- The Machine State (R21), and the model's `ports`. -/
structure State where
  /-- `V[0]` to `V[15]` (R23); `VF` is `V[15]` (R24) -/
  v : Vector Byte 16
  /-- `I` (R26) -/
  idx : Word
  /-- `PC` (R27) -/
  pc : Word
  /-- `STACK`, top first (R28; log 5) -/
  stack : List Word
  /-- `DT` (R29) -/
  dt : Byte
  /-- `ST` (R30) -/
  st : Byte
  /-- `BLK` (R31) -/
  blk : Blk
  /-- `SHIFT_USES_VY` (R32) -/
  shiftUsesVy : Bool
  /-- `MEM` (R22) -/
  mem : Memory
  /-- the boundary to the host collaborators (the model's own) -/
  ports : Ports
  deriving DecidableEq, Repr

/-- No call made, no answer queued (log 4). -/
def Ports.reset : Ports := { calls := [], rng := [], keys := [], collisions := [] }

/-- `construct(shift_uses_vy)` (R140, R141). -/
def State.construct (shiftUsesVy : Bool) : State :=
  { v := Vector.replicate 16 0, idx := 0, pc := 0x200, stack := [], dt := 0, st := 0, blk := .running,
    shiftUsesVy := shiftUsesVy, mem := [], ports := Ports.reset }

/-- The state after construction with `SHIFT_USES_VY` false, the base state of 95_test_vectors.md (R141; log 1). -/
def State.reset : State := State.construct false

/-- What a step answers. -/
abbrev StepResult := Host.Outcome State Fault Refusal

end Sys2Proof.Machine
end

