-- ==== Sys2Proof/Machine/Ops.lean ====
section
/-! DEFINITION. The named operations over registers, memory, stack, program counter and host ports, and the raising of an error. -/

namespace Sys2Proof.Machine

/-! ## Registers -/

/-- `V[x]` (R16, R23). -/
def State.getV (s : State) (x : Nibble) : Byte := s.v[x.toNat]'x.isLt

/-- `V[x] <- b` (R16, R23). -/
def State.setV (s : State) (x : Nibble) (b : Byte) : State := { s with v := s.v.set x.toNat b x.isLt }

/-- `I <- a` (R26). -/
def State.setIdx (s : State) (a : Word) : State := { s with idx := a }

/-- `PC <- a` (R27). -/
def State.setPc (s : State) (a : Word) : State := { s with pc := a }

/-- `STACK <- l` (R28). -/
def State.setStack (s : State) (l : List Word) : State := { s with stack := l }

/-- `DT <- b` (R29). -/
def State.setDt (s : State) (b : Byte) : State := { s with dt := b }

/-- `ST <- b` (R30). -/
def State.setSt (s : State) (b : Byte) : State := { s with st := b }

/-- `BLK <- b` (R31). -/
def State.setBlk (s : State) (b : Blk) : State := { s with blk := b }

/-- All of `MEM`. -/
def State.setMem (s : State) (m : Memory) : State := { s with mem := m }

/-- The boundary to the host collaborators. -/
def State.setPorts (s : State) (p : Ports) : State := { s with ports := p }

/-- The audio output: `ST != 0` (R132). -/
def State.audioOut (s : State) : Bool := s.st != 0

/-- `V[k], V[k+1], ...` receive the bytes in order (R102). -/
def State.setVs (s : State) (k : Nat) : List Byte → State
  | [] => s
  | b :: bs => (s.setV (BitVec.ofNat 4 k) b).setVs (k + 1) bs

/-! ## The program counter control unit (40_control.md R70) -/

/-- `PC <- (PC + 2) mod 65536`. -/
def State.advance (s : State) : State := s.setPc (s.pc + 2)

/-- A skip: `PC + 4` when the condition holds, else `PC + 2`, modulo 65536. -/
def State.skipIf (s : State) (c : Bool) : State := s.setPc (if c then s.pc + 4 else s.pc + 2)

/-! ## Errors (60_exceptions.md R117, R125) -/

/-- `raise e`: the step ends and answers the error. Nothing is saved and no handler is entered; the state stays what it was
before the step, since the answer carries none (R18, R125). There is no return from an error (R127). -/
def raise (e : Fault) : StepResult := .fault e

/-- The cause code of an error (R117). -/
def faultCode : Fault → Nat
  | .unimplementedOpcode _ _ => 1
  | .stackUnderflow => 2
  | .stackOverflow => 3
  | .outOfBounds _ => 4

/-- The cause code of a step's result: 0 for `Ok`, else the error's (R117). A refusal, which no step answers, has none. -/
def resultCode : StepResult → Option Nat
  | .next _ => some 0
  | .fault e => some (faultCode e)
  | .refused _ => none

/-! ## Memory (20_memory.md) -/

/-- The byte at an address: the listed one, else the reset contents. Callers check the address first. -/
def Memory.read (m : Memory) (a : Nat) : Byte :=
  match m.find? (fun c => c.1 == a) with
  | some c => c.2
  | none => resetByte a

/-- A cell put at its place among rising addresses. -/
def Memory.insert (a : Nat) (b : Byte) : Memory → Memory
  | [] => [(a, b)]
  | c :: m => if a < c.1 then (a, b) :: c :: m else c :: Memory.insert a b m

/-- `MEM[a] <- b`: the cell is listed exactly when `b` differs from its reset contents. -/
def Memory.write (m : Memory) (a : Nat) (b : Byte) : Memory :=
  if b = resetByte a then m.filter (fun c => c.1 != a) else Memory.insert a b (m.filter (fun c => c.1 != a))

/-- `MEM[a], ..., MEM[a+n-1]`. -/
def Memory.readBytes (m : Memory) (a n : Nat) : List Byte := (List.range n).map (fun k => m.read (a + k))

/-- The bytes to `MEM[a], MEM[a+1], ...`, in ascending order (R17). -/
def Memory.writeBytes (m : Memory) (a : Nat) : List Byte → Memory
  | [] => m
  | b :: bs => (m.write a b).writeBytes (a + 1) bs

/-- The canonical form: addresses strictly rising and in bounds, and no cell equal to its reset contents. -/
abbrev Memory.wf (m : Memory) : Prop :=
  m.Pairwise (fun c d => c.1 < d.1) ∧ ∀ c ∈ m, c.1 < Config.memSize ∧ c.2 ≠ resetByte c.1

/-- The byte at an address of the state's memory. -/
def State.readByte (s : State) (a : Nat) : Byte := s.mem.read a

/-- The lowest of `addr, ..., addr+n-1` that is out of bounds (R40, D7). -/
def firstOutOfBounds (addr : Nat) : Nat → Option Nat
  | 0 => none
  | n + 1 => if addr < Config.memSize then firstOutOfBounds (addr + 1) n else some addr

/-- `BoundsCheck(addr, n)` (R40). The addresses are integers, never reduced (R38, R39). -/
def boundsCheck (addr n : Nat) : Except Fault Unit :=
  match firstOutOfBounds addr n with
  | some a => .error (.outOfBounds a)
  | none => .ok ()

/-- `MemRead(addr, n)`: the check, then the bytes (R17). -/
def State.memRead (s : State) (addr n : Nat) : Except Fault (List Byte) :=
  match boundsCheck addr n with
  | .error e => .error e
  | .ok () => .ok (s.mem.readBytes addr n)

/-- `MemWrite(addr, n, bs)` with `n` the length of `bs`: the check, then every byte (R17). -/
def State.memWrite (s : State) (addr : Nat) (bs : List Byte) : Except Fault State :=
  match boundsCheck addr bs.length with
  | .error e => .error e
  | .ok () => .ok (s.setMem (s.mem.writeBytes addr bs))

/-- The fetch: both bytes at `PC`, big-endian; reads the state and writes nothing (R57). -/
def State.fetch (s : State) : Except Fault Word :=
  match boundsCheck s.pc.toNat 2 with
  | .error e => .error e
  | .ok () => .ok (bigEndian (s.readByte s.pc.toNat) (s.readByte (s.pc.toNat + 1)))

/-! ## Host calls (00_scope.md R19; 60_exceptions.md R133 to R135) -/

/-- How many host calls were made: the counter the free values are read at. -/
def State.callCount (s : State) : Nat := s.ports.calls.length

/-- `Display.clear()` (R103, R133). -/
def State.afterClear (s : State) : State := s.setPorts { s.ports with calls := .clear :: s.ports.calls }

/-- The Display Sink's answer to the next `draw(x, y, rows)`: any Boolean (R133, D28). -/
def State.drawAnswer (s : State) (x y : Nat) (rows : List Byte) : Bool :=
  match s.ports.collisions with
  | c :: _ => c
  | [] => Config.freeCollision s.callCount x y rows

/-- The call `Display.draw(x, y, rows)` is made and its answer taken. -/
def State.afterDraw (s : State) (x y : Nat) (rows : List Byte) : State :=
  s.setPorts { s.ports with calls := .draw x y rows :: s.ports.calls, collisions := s.ports.collisions.tail }

/-- The Keypad Source's answer to the next `is_pressed(k)`: any Boolean, for key codes above 15 too (R134, D10, D28). -/
def State.pressedAnswer (s : State) (key : Byte) : Bool :=
  match s.ports.keys with
  | p :: _ => p
  | [] => Config.freePressed s.callCount key

/-- The call `Keypad.is_pressed(k)` is made and its answer taken. -/
def State.afterPressed (s : State) (key : Byte) : State :=
  s.setPorts { s.ports with calls := .isPressed key :: s.ports.calls, keys := s.ports.keys.tail }

/-- The Randomness Source's answer to the next `byte()`: any value (R135, D27). -/
def State.rngAnswer (s : State) : Byte :=
  match s.ports.rng with
  | r :: _ => r
  | [] => Config.freeByte s.callCount

/-- The call `Rng.byte()` is made and its answer taken. -/
def State.afterRng (s : State) : State :=
  s.setPorts { s.ports with calls := .rngByte :: s.ports.calls, rng := s.ports.rng.tail }

end Sys2Proof.Machine
end

