-- ==== Sys2Proof/Machine/Operands.lean ====
section
/-! DEFINITION. The operand forms: addresses, shift source, register blocks, decimal digits, sprite coordinates. Nothing is
sign-extended or scaled (30_encoding.md R59, 00_scope.md R15). -/

namespace Sys2Proof.Machine

/-- `VF`, the flag register, is `V[15]` (R24). -/
def regF : Nibble := 0xF

/-- `NNN` as a 16-bit address, zero-extended (R59). -/
def target12 (nnn : Addr12) : Word := nnn.setWidth 16

/-- `NNN + V[0]`, not reduced to 12 bits (R80). -/
def State.targetV0 (s : State) (nnn : Addr12) : Word := nnn.setWidth 16 + (s.getV 0).setWidth 16

/-- The shift source: `V[Y]` when `SHIFT_USES_VY`, else `V[X]` (R92, R94). -/
def State.shiftSource (s : State) (x y : Nibble) : Byte := if s.shiftUsesVy then s.getV y else s.getV x

/-- `[V[0], ..., V[X]]` (R59, R101). -/
def State.regBlock (s : State) (x : Nibble) : List Byte :=
  (List.range (x.toNat + 1)).map (fun k => s.getV (BitVec.ofNat 4 k))

/-- The number of registers of the block `V[0]` to `V[X]`. -/
def blockLength (x : Nibble) : Nat := x.toNat + 1

/-- `(I + X + 1) mod 65536` (R101, R102). -/
def State.idxAfterBlock (s : State) (x : Nibble) : Word := s.idx + BitVec.ofNat 16 (blockLength x)

/-- `(I + V[X]) mod 65536` (R98). -/
def State.idxPlus (s : State) (x : Nibble) : Word := s.idx + (s.getV x).setWidth 16

/-- The address of the glyph of `V[X]`: the whole byte times 5 (R99). -/
def State.glyphAddr (s : State) (x : Nibble) : Word := BitVec.ofNat 16 ((s.getV x).toNat * Config.glyphBytes)

/-- Hundreds, tens and units of a byte (R100). -/
def bcdDigits (b : Byte) : List Byte :=
  [BitVec.ofNat 8 (b.toNat / 100), BitVec.ofNat 8 (b.toNat / 10 % 10), BitVec.ofNat 8 (b.toNat % 10)]

/-- The column a sprite is drawn at: `V[X] mod DISPLAY_W` (R104). -/
def State.spriteColumn (s : State) (x : Nibble) : Nat := (s.getV x).toNat % Config.displayW

/-- The row a sprite is drawn at: `V[Y] mod DISPLAY_H` (R104). -/
def State.spriteRow (s : State) (y : Nibble) : Nat := (s.getV y).toNat % Config.displayH

/-- The address an access through `I` starts at, as an integer (R39). -/
def State.idxAddr (s : State) : Nat := s.idx.toNat

end Sys2Proof.Machine
end

