-- ==== Sys2Proof/Machine/Flags.lean ====
section
/-! DEFINITION. The flag computations: each is a Boolean of the operands, written to `VF` as 0 or 1 after the result
(41_alu.md R82, R83, R90 to R94; 43_devices.md R104). -/

namespace Sys2Proof.Machine

/-- A flag as the byte `VF` receives. -/
def flagByte (c : Bool) : Byte := if c then 1 else 0

/-- The carry of `a + b`: the unreduced sum exceeds 255 (R90). -/
def carryOut (a b : Byte) : Bool := decide (a.toNat + b.toNat > 255)

/-- No borrow in `a - b` (R91, R93; C2). -/
def noBorrow (a b : Byte) : Bool := decide (a.toNat ≥ b.toNat)

/-- The bit a right shift drops (R92). -/
def shiftedOutRight (src : Byte) : Bool := src.getLsbD 0

/-- The bit a left shift drops (R94). -/
def shiftedOutLeft (src : Byte) : Bool := src.getLsbD 7

/-- `V[X] <- r`, then `VF <- flag`: the flag is written last, so it wins when `X = 0xF` (R83). -/
def State.setResultAndFlag (s : State) (x : Nibble) (r : Byte) (flag : Bool) : State :=
  (s.setV x r).setV regF (flagByte flag)

end Sys2Proof.Machine
end

