-- ==== Sys2Proof/Machine/Alu.lean ====
section
/-! DEFINITION. The register and ALU instructions (41_alu.md R82 to R96): operands are read from the state before the
instruction, results wrap at 8 bits. -/

namespace Sys2Proof.Machine

/-- LD Vx,NN (R84). -/
def execLdImm (x : Nibble) (nn : Byte) (s : State) : StepResult := .next (s.setV x nn).advance

/-- ADD Vx,NN: no flag (R85). -/
def execAddImm (x : Nibble) (nn : Byte) (s : State) : StepResult := .next (s.setV x (s.getV x + nn)).advance

/-- LD Vx,Vy (R86). -/
def execLdReg (x y : Nibble) (s : State) : StepResult := .next (s.setV x (s.getV y)).advance

/-- OR Vx,Vy: `VF` is not reset (R87). -/
def execOr (x y : Nibble) (s : State) : StepResult := .next (s.setV x (s.getV x ||| s.getV y)).advance

/-- AND Vx,Vy (R88). -/
def execAnd (x y : Nibble) (s : State) : StepResult := .next (s.setV x (s.getV x &&& s.getV y)).advance

/-- XOR Vx,Vy (R89). -/
def execXor (x y : Nibble) (s : State) : StepResult := .next (s.setV x (s.getV x ^^^ s.getV y)).advance

/-- ADD Vx,Vy (R90). -/
def execAddReg (x y : Nibble) (s : State) : StepResult :=
  .next (s.setResultAndFlag x (s.getV x + s.getV y) (carryOut (s.getV x) (s.getV y))).advance

/-- SUB Vx,Vy (R91). -/
def execSub (x y : Nibble) (s : State) : StepResult :=
  .next (s.setResultAndFlag x (s.getV x - s.getV y) (noBorrow (s.getV x) (s.getV y))).advance

/-- SHR Vx,Vy (R92). -/
def execShr (x y : Nibble) (s : State) : StepResult :=
  .next (s.setResultAndFlag x (s.shiftSource x y >>> 1) (shiftedOutRight (s.shiftSource x y))).advance

/-- SUBN Vx,Vy (R93). -/
def execSubn (x y : Nibble) (s : State) : StepResult :=
  .next (s.setResultAndFlag x (s.getV y - s.getV x) (noBorrow (s.getV y) (s.getV x))).advance

/-- SHL Vx,Vy (R94). -/
def execShl (x y : Nibble) (s : State) : StepResult :=
  .next (s.setResultAndFlag x (s.shiftSource x y <<< 1) (shiftedOutLeft (s.shiftSource x y))).advance

/-- RND Vx,NN: one call to the Randomness Source, whatever the mask (R95). -/
def execRnd (x : Nibble) (nn : Byte) (s : State) : StepResult := .next (s.afterRng.setV x (s.rngAnswer &&& nn)).advance

end Sys2Proof.Machine
end

