-- ==== Sys2Proof/Machine/Control.lean ====
section
/-! DEFINITION. The control-transfer instructions (40_control.md R70 to R81). -/

namespace Sys2Proof.Machine

/-- RET (R73). -/
def execRet (s : State) : StepResult :=
  match s.stack with
  | [] => raise .stackUnderflow
  | a :: rest => .next ((s.setStack rest).setPc a)

/-- JP NNN (R74). -/
def execJp (nnn : Addr12) (s : State) : StepResult := .next (s.setPc (target12 nnn))

/-- CALL NNN: pushes the address after the CALL (R75, D5, C1). -/
def execCall (nnn : Addr12) (s : State) : StepResult :=
  if s.stack.length < Config.stackDepth then .next ((s.setStack ((s.pc + 2) :: s.stack)).setPc (target12 nnn))
  else raise .stackOverflow

/-- SE Vx,NN (R76). -/
def execSeImm (x : Nibble) (nn : Byte) (s : State) : StepResult := .next (s.skipIf (s.getV x == nn))

/-- SNE Vx,NN (R77). -/
def execSneImm (x : Nibble) (nn : Byte) (s : State) : StepResult := .next (s.skipIf (s.getV x != nn))

/-- SE Vx,Vy (R78). -/
def execSeReg (x y : Nibble) (s : State) : StepResult := .next (s.skipIf (s.getV x == s.getV y))

/-- SNE Vx,Vy (R79). -/
def execSneReg (x y : Nibble) (s : State) : StepResult := .next (s.skipIf (s.getV x != s.getV y))

/-- JP V0,NNN (R80). -/
def execJpV0 (nnn : Addr12) (s : State) : StepResult := .next (s.setPc (s.targetV0 nnn))

end Sys2Proof.Machine
end

