-- ==== Sys2Proof/Machine/Devices.lean ====
section
/-! DEFINITION. The display, keypad and timer instructions (43_devices.md R103 to R110). -/

namespace Sys2Proof.Machine

/-- CLS: one call, and the pc (R103). -/
def execCls (s : State) : StepResult := .next s.afterClear.advance

/-- DRW Vx,Vy,N: the read is checked before the Display Sink is called; its answer is written to `VF` (R104). -/
def execDrw (x y n : Nibble) (s : State) : StepResult :=
  match s.memRead s.idxAddr n.toNat with
  | .error e => raise e
  | .ok rows =>
    .next ((s.afterDraw (s.spriteColumn x) (s.spriteRow y) rows).setV regF
      (flagByte (s.drawAnswer (s.spriteColumn x) (s.spriteRow y) rows))).advance

/-- SKP Vx (R105). -/
def execSkp (x : Nibble) (s : State) : StepResult :=
  .next ((s.afterPressed (s.getV x)).skipIf (s.pressedAnswer (s.getV x)))

/-- SKNP Vx (R106). -/
def execSknp (x : Nibble) (s : State) : StepResult :=
  .next ((s.afterPressed (s.getV x)).skipIf (!s.pressedAnswer (s.getV x)))

/-- LD Vx,DT (R107). -/
def execLdVxDt (x : Nibble) (s : State) : StepResult := .next (s.setV x s.dt).advance

/-- LD Vx,K: waits; the pc is held until `resume_with_key` (R108, C5). -/
def execLdVxK (x : Nibble) (s : State) : StepResult := .next (s.setBlk (.awaitingKey x))

/-- LD DT,Vx (R109). -/
def execLdDtVx (x : Nibble) (s : State) : StepResult := .next (s.setDt (s.getV x)).advance

/-- LD ST,Vx (R110). -/
def execLdStVx (x : Nibble) (s : State) : StepResult := .next (s.setSt (s.getV x)).advance

end Sys2Proof.Machine
end

