-- ==== Sys2Proof/Machine/IndexMemory.lean ====
section
/-! DEFINITION. The index register and memory instructions (42_index_memory.md R97 to R102). Every access is checked before
anything is written. -/

namespace Sys2Proof.Machine

/-- LD I,NNN (R97). -/
def execLdI (nnn : Addr12) (s : State) : StepResult := .next (s.setIdx (target12 nnn)).advance

/-- ADD I,Vx: wraps at 16 bits, no flag, no error (R98). -/
def execAddI (x : Nibble) (s : State) : StepResult := .next (s.setIdx (s.idxPlus x)).advance

/-- LD F,Vx (R99). -/
def execLdF (x : Nibble) (s : State) : StepResult := .next (s.setIdx (s.glyphAddr x)).advance

/-- LD B,Vx (R100). -/
def execLdB (x : Nibble) (s : State) : StepResult :=
  match s.memWrite s.idxAddr (bcdDigits (s.getV x)) with
  | .error e => raise e
  | .ok s' => .next s'.advance

/-- LD [I],Vx (R101). -/
def execStoreRegs (x : Nibble) (s : State) : StepResult :=
  match s.memWrite s.idxAddr (s.regBlock x) with
  | .error e => raise e
  | .ok s' => .next (s'.setIdx (s.idxAfterBlock x)).advance

/-- LD Vx,[I] (R102). -/
def execLoadRegs (x : Nibble) (s : State) : StepResult :=
  match s.memRead s.idxAddr (blockLength x) with
  | .error e => raise e
  | .ok bs => .next ((s.setVs 0 bs).setIdx (s.idxAfterBlock x)).advance

end Sys2Proof.Machine
end

