-- ==== Sys2Proof/Machine/Step.lean ====
section
/-! DEFINITION. The step transaction (30_encoding.md R68), and the placing of an instruction where the next step fetches it. -/

namespace Sys2Proof.Machine

/-- `step()` (R68): while a key is awaited nothing is fetched and nothing changes (R113); else one fetch, one decode, one
dispatch, with the errors in that order (R124). -/
def step (s : State) : Host.Outcome State Fault Refusal :=
  match s.blk with
  | .awaitingKey _ => .next s
  | .running =>
    match s.fetch with
    | .error e => raise e
    | .ok op =>
      match decodeWord op with
      | .error _ => raise (.unimplementedOpcode op s.pc)
      | .ok i => exec i s

/-- Where the next step can fetch two bytes: the pc, or the load address when the pc has no two bytes in bounds (log 9). -/
def State.fetchPlace (s : State) : Word := if s.pc.toNat + 1 < Config.memSize then s.pc else BitVec.ofNat 16 Config.loadAddr

/-- The state with a table word at the place the next step fetches from, and no key awaited (log 9). -/
def State.withFetchWord (s : State) (nbits w : Nat) : State :=
  ((s.setPc s.fetchPlace).setBlk .running).setMem (s.mem.writeBytes s.fetchPlace.toNat (tableBytes nbits w))

end Sys2Proof.Machine
end

