-- ==== Sys2Proof/Machine/Display.lean ====
section
/-! DEFINITION. A host display model beside the core (60_exceptions.md R133, D18, G5): 64 by 32 pixels, XOR composition, collision.
It is no part of the Machine State (R21) and `step` does not use it: the core takes the Display Sink's answer as an input (log 11). -/

namespace Sys2Proof.Machine

/-- `DISPLAY_EDGE`, the open host parameter: what becomes of sprite pixels past the right or bottom edge (D18). -/
inductive DisplayEdge where
  | clip
  | wrap
  deriving DecidableEq, Repr

/-- The pixels: 32 rows, top first, of 64 bits, the leftmost pixel the most significant. -/
abbrev Grid := Vector (BitVec 64) 32

/-- Every pixel unset: what `clear()` leaves. That the display also starts so is the model's choice, see `gridAfter`. -/
def Grid.blank : Grid := Vector.replicate 32 0

/-- The pixel in a column and row; unset outside the grid. -/
def Grid.pixel (g : Grid) (px py : Nat) : Bool := (g.toList.getD py 0).getMsbD px

/-- A row byte with its bit 7 at a column (G5), cut or wrapped at the right edge. -/
def spriteBits (edge : DisplayEdge) (x : Nat) (b : Byte) : BitVec 64 :=
  match edge with
  | .clip => (b.setWidth 64 <<< 56) >>> x
  | .wrap => (b.setWidth 64 <<< 56).rotateRight x

/-- The row byte, if any, that a sprite at row `y` puts on display row `py`. -/
def spriteByteOn (edge : DisplayEdge) (y : Nat) (rows : List Byte) (py : Nat) : Option Byte :=
  match edge with
  | .clip => if y ≤ py then rows[py - y]? else none
  | .wrap => rows[(py + Config.displayH - y) % Config.displayH]?

/-- The bits a sprite at column `x`, row `y` flips on display row `py`. -/
def spriteRowBits (edge : DisplayEdge) (x y : Nat) (rows : List Byte) (py : Nat) : BitVec 64 :=
  match spriteByteOn edge y rows py with
  | some b => spriteBits edge x b
  | none => 0

/-- `draw(x, y, rows)`: the pixels after it, composed by XOR (R133). -/
def Grid.draw (g : Grid) (edge : DisplayEdge) (x y : Nat) (rows : List Byte) : Grid :=
  Vector.ofFn fun (py : Fin 32) => g[py] ^^^ spriteRowBits edge x y rows py

/-- The answer of `draw(x, y, rows)`: some pixel goes from set to unset (R133). -/
def Grid.collides (g : Grid) (edge : DisplayEdge) (x y : Nat) (rows : List Byte) : Bool :=
  (List.range Config.displayH).any fun py => (g.toList.getD py 0) &&& spriteRowBits edge x y rows py != 0

/-- The pixels after the recorded host calls, newest first. DESIGN CHOICE (log 11), unsafe: before any call every pixel is unset; the
spec gives the Display Sink's grid no initial content (R10, R133, R141). -/
def gridAfter (edge : DisplayEdge) : List HostCall → Grid
  | [] => Grid.blank
  | .clear :: _ => Grid.blank
  | .draw x y rows :: earlier => (gridAfter edge earlier).draw edge x y rows
  | .isPressed _ :: earlier => gridAfter edge earlier
  | .rngByte :: earlier => gridAfter edge earlier

/-- The collision a Display Sink that keeps to R133 answers to the next `draw(x, y, rows)` of a machine. -/
def State.trueCollision (s : State) (edge : DisplayEdge) (x y : Nat) (rows : List Byte) : Bool :=
  (gridAfter edge s.ports.calls).collides edge x y rows

end Sys2Proof.Machine
end

