-- ==== Sys2Proof/Machine/Transactions.lean ====
section
/-! DEFINITION. The host's transactions (60_exceptions.md R129): the timers, the resumption, the ROM Loader, the soft reset, and
one function that runs any of them, so that rules about the whole machine can be stated over them all. -/

namespace Sys2Proof.Machine

/-- One below, but never below zero (R130). -/
def decTimer (b : Byte) : Byte := if b = 0 then 0 else b - 1

/-- `tick_timers()` (R130). -/
def State.tickTimers (s : State) : State := (s.setDt (decTimer s.dt)).setSt (decTimer s.st)

/-- `resume_with_key(k)` (R114); ignored while `Running` (R115, D11). -/
def State.resumeWithKey (s : State) (k : Nibble) : State :=
  match s.blk with
  | .awaitingKey r => ((s.setV r (k.setWidth 8)).setPc (s.pc + 2)).setBlk .running
  | .running => s

/-- The bytes in memory from the load address (R143). -/
def State.placeRom (s : State) (bs : List Byte) : State := s.setMem (s.mem.writeBytes Config.loadAddr bs)

/-- `load_rom(bytes)` (R143): none when the sequence would pass the end of memory, and then nothing is written (R144, D25). -/
def State.loadRom (s : State) (bs : List Byte) : Option State :=
  if Config.loadAddr + bs.length ≤ Config.memSize then some (s.placeRom bs) else none

/-- What a host does before a run, in its order: construct, then load (R146); none when the ROM is rejected. -/
def State.boot (shiftUsesVy : Bool) (rom : List Byte) : Option State := (State.construct shiftUsesVy).loadRom rom

/-- `soft_reset()` (R145): registers, `I`, `PC`, `STACK` and `BLK`; `MEM`, `DT`, `ST` and `SHIFT_USES_VY` stay (D13). -/
def State.softReset (s : State) : State :=
  { s with v := Vector.replicate 16 0, idx := 0, pc := 0x200, stack := [], blk := .running }

/-- The transactions on a machine that exists (R129; `construct` makes one). -/
inductive Transaction where
  | loadRom (bytes : List Byte)
  | step
  | tickTimers
  | resumeWithKey (key : Nibble)
  | softReset
  deriving DecidableEq, Repr

/-- What a transaction answers the host (R117, R129, R143, R144). -/
inductive Answer where
  /-- `Ok`, and the answer of the transactions that return nothing -/
  | ok
  /-- the ROM was accepted -/
  | accepted
  /-- the ROM was rejected -/
  | rejected
  /-- `step` raised an error -/
  | error (e : Fault)
  /-- `step` met an instruction the model has no meaning for; no instruction of this model is one -/
  | refused (r : Refusal)
  deriving DecidableEq, Repr

/-- One transaction: the state it leaves and its answer. A step that raises leaves the state as it was (R18, R125); so does a
rejected load (R144). -/
def State.transact (s : State) : Transaction → State × Answer
  | .loadRom bs =>
    match s.loadRom bs with
    | some t => (t, .accepted)
    | none => (s, .rejected)
  | .step =>
    match Sys2Proof.Machine.step s with
    | .next t => (t, .ok)
    | .fault e => (s, .error e)
    | .refused r => (s, .refused r)
  | .tickTimers => (s.tickTimers, .ok)
  | .resumeWithKey k => (s.resumeWithKey k, .ok)
  | .softReset => (s.softReset, .ok)

/-- A sequence of transactions, in the host's order (R45, R129). -/
def State.transactAll (s : State) : List Transaction → State
  | [] => s
  | τ :: τs => (s.transact τ).1.transactAll τs

end Sys2Proof.Machine
end

