-- ==== Sys2Proof/Safety.lean ====
section
/-! DEFINITION. The terms claims are stated in: frames, the next-PC law's classes, the unimplemented space, the fetched word, and the
invariant of a machine that a host has constructed and driven by transactions. -/

namespace Sys2Proof.Machine

/-! ## Frames -/

/-- The parts of the state beside the general registers and the pc. -/
inductive StatePart where
  | idx
  | stack
  | dt
  | st
  | blk
  | shiftUsesVy
  | mem
  | ports
  deriving DecidableEq, Repr

/-- The part is the same in both states; memory, when every byte reads the same. -/
def StatePart.same (p : StatePart) (s t : State) : Prop :=
  match p with
  | .idx => t.idx = s.idx
  | .stack => t.stack = s.stack
  | .dt => t.dt = s.dt
  | .st => t.st = s.st
  | .blk => t.blk = s.blk
  | .shiftUsesVy => t.shiftUsesVy = s.shiftUsesVy
  | .mem => ∀ a, t.readByte a = s.readByte a
  | .ports => t.ports = s.ports

/-- The frame: from `s` to `t` every general register outside `regs` and every part outside `parts` is unchanged. It says nothing of
the pc. -/
def SameOutside (regs : List Nibble) (parts : List StatePart) (s t : State) : Prop :=
  (∀ r, r ∉ regs → t.getV r = s.getV r) ∧ ∀ p, p ∉ parts → p.same s t

/-- Every byte outside `len` bytes from `a` on reads as before. -/
def SameBytesOutside (a len : Nat) (s t : State) : Prop :=
  ∀ k, k < a ∨ a + len ≤ k → t.readByte k = s.readByte k

/-- The pc moves on by `n` bytes, modulo 65536 (R70). -/
def PcMovesBy (n : Nat) (s t : State) : Prop := t.pc.toNat = (s.pc.toNat + n) % 65536

/-! ## Fetch and decode -/

/-- The next step fetches: no key is awaited and both bytes at the pc are in bounds (R27, R57, R68). -/
def FetchReady (s : State) : Prop := s.blk = .running ∧ s.pc.toNat + 1 < 4096

/-- The opcode at the pc, as an integer: `MEM[PC] * 256 + MEM[PC + 1]` (R57). -/
def opcodeAtPc (s : State) : Nat := (s.readByte s.pc.toNat).toNat * 256 + (s.readByte (s.pc.toNat + 1)).toNat

/-- The instruction at the pc is `i`. -/
def InstrAtPc (s : State) (i : Instr) : Prop := decodeWord (BitVec.ofNat 16 (opcodeAtPc s)) = .ok i

/-- The words of R64's table, by their fields as integers. -/
def UnimplementedWord (op : Nat) : Prop :=
  (op / 4096 = 0x0 ∧ op ≠ 0x00E0 ∧ op ≠ 0x00EE) ∨
  (op / 4096 = 0x5 ∧ op % 16 ≠ 0) ∨
  (op / 4096 = 0x8 ∧ op % 16 ∈ [0x8, 0x9, 0xA, 0xB, 0xC, 0xD, 0xF]) ∨
  (op / 4096 = 0x9 ∧ op % 16 ≠ 0) ∨
  (op / 4096 = 0xE ∧ op % 256 ∉ [0x9E, 0xA1]) ∨
  (op / 4096 = 0xF ∧ op % 256 ∉ [0x07, 0x0A, 0x15, 0x18, 0x1E, 0x29, 0x33, 0x55, 0x65])

/-! ## The next-PC law (R70) -/

/-- The pc of a skip: four on when the condition holds, else two. -/
def skipPc (s : State) (c : Bool) : Nat := (s.pc.toNat + if c then 4 else 2) % 65536

/-- The pc after an instruction that does not raise, by R70's classes: absolute, skip, held, sequential. -/
def pcAfter (i : Instr) (s : State) : Nat :=
  match i with
  | .jp nnn => nnn.toNat
  | .call nnn => nnn.toNat
  | .jpV0 nnn => nnn.toNat + (s.getV 0).toNat
  | .ret => (s.stack.headD 0).toNat
  | .seImm x nn => skipPc s (decide (s.getV x = nn))
  | .sneImm x nn => skipPc s (decide (s.getV x ≠ nn))
  | .seReg x y => skipPc s (decide (s.getV x = s.getV y))
  | .sneReg x y => skipPc s (decide (s.getV x ≠ s.getV y))
  | .skp x => skipPc s (s.pressedAnswer (s.getV x))
  | .sknp x => skipPc s (!s.pressedAnswer (s.getV x))
  | .ldVxK _ => s.pc.toNat
  | _ => (s.pc.toNat + 2) % 65536

/-! ## Writers (10_state.md R24, R26, R28 to R31) -/

/-- The instruction writes `VF` as a flag (R24). -/
def writesFlag : Instr → Bool
  | .addReg _ _ | .sub _ _ | .shr _ _ | .subn _ _ | .shl _ _ | .drw _ _ _ => true
  | _ => false

/-- The register an instruction's `X` field names as its destination, if it has one (R23). -/
def destination : Instr → Option Nibble
  | .ldImm x _ | .addImm x _ | .rnd x _ => some x
  | .ldReg x _ | .orReg x _ | .andReg x _ | .xorReg x _ | .addReg x _ | .sub x _ | .shr x _ | .subn x _ | .shl x _ => some x
  | .ldVxDt x | .loadRegs x => some x
  | _ => none

/-- The host calls an instruction makes, given the rows a draw reads (R19, R133 to R135). -/
def hostCallsOf (i : Instr) (s : State) (rows : List Byte) : List HostCall :=
  match i with
  | .cls => [.clear]
  | .drw x y _ => [.draw ((s.getV x).toNat % 64) ((s.getV y).toNat % 32) rows]
  | .skp x => [.isPressed (s.getV x)]
  | .sknp x => [.isPressed (s.getV x)]
  | .rnd _ _ => [.rngByte]
  | _ => []

/-! ## The invariant of a driven machine -/

/-- What holds of every machine a host constructs and drives: memory is in its canonical form and bounds (R5, R22); the stack is at
most 16 deep (R28); the pc is at most 0x10FE and every return address at most 0x1000, so no pc increment wraps (R71); and a wait
began at a pc that was fetched from (R27, R108). -/
abbrev State.Inv (s : State) : Prop :=
  s.mem.wf ∧ s.stack.length ≤ 16 ∧ s.pc.toNat ≤ 0x10FE ∧ (∀ a ∈ s.stack, a.toNat ≤ 0x1000) ∧
  (s.blk ≠ .running → s.pc.toNat ≤ 0xFFE)

/-! ## The host display (60_exceptions.md R133, G5, D18) -/

/-- A sprite's row byte has its bit set at an offset from its left edge; bit 7 is the leftmost (G5). -/
def rowBitAt (b : Byte) (offset : Nat) : Bool := decide (offset < 8) && b.getLsbD (7 - offset)

/-- A sprite drawn at column `x`, row `y` covers the pixel in column `px`, row `py`. -/
def covers (edge : DisplayEdge) (x y : Nat) (rows : List Byte) (px py : Nat) : Bool :=
  match edge with
  | .clip => decide (x ≤ px ∧ y ≤ py ∧ py - y < rows.length) && rowBitAt (rows.getD (py - y) 0) (px - x)
  | .wrap => decide ((py + 32 - y) % 32 < rows.length) && rowBitAt (rows.getD ((py + 32 - y) % 32) 0) ((px + 64 - x) % 64)

end Sys2Proof.Machine
end

