-- ==== Sys2Proof/Certificates/Slice0/Obligations.lean ====
section
/-! DEFINITION. The statements for the provers: what the numbered rules of spec/ say of decoding, of each instruction, of the errors, of
the host's transactions, and of the machine as a whole. -/

open Sys2Proof Sys2Proof.Machine

/-! ## Decoding -/

/-- Words written out bit by bit from R62's patterns decode to the instruction they stand for, and one that matches no row is rejected
(the patterns are the spec's G1 and G2, the literal digit its decision D3, log 7). -/
def Obligations.DecodesHandWrittenWords : Prop :=
  decodeWord 0b0000000011100000 = .ok .cls ∧
  decodeWord 0b0000000011101110 = .ok .ret ∧
  decodeWord 0b0010001100000100 = .ok (.call 0x304) ∧
  decodeWord 0b0110101001011100 = .ok (.ldImm 0xA 0x5C) ∧
  decodeWord 0b1000001100010101 = .ok (.sub 0x3 0x1) ∧
  decodeWord 0b1101000100100101 = .ok (.drw 0x1 0x2 0x5) ∧
  decodeWord 0b1110010010100001 = .ok (.sknp 0x4) ∧
  decodeWord 0b1111001001100101 = .ok (.loadRegs 0x2) ∧
  decodeWord 0b0101000100100001 = .error (.unimplementedOpcode 0x5121)

/-- Decode of encode is the instruction, for every instruction and every operand value, as a word and as the first two bytes of any
byte sequence (the patterns are the spec's G1 and G2, log 7). -/
def Obligations.DecodeOfEncodeIsTheInstruction : Prop :=
  ∀ (i : Instr) (rest : List Byte),
    decodeWord (encode i) = .ok i ∧ decodeBytes (encodeBytes i ++ rest) = .ok (i, rest)

/-- A word that decodes is the encoding of what it decodes to: no bit of a word is ignored, so each word has one meaning (that every
digit of a pattern is literal is the spec's decision D3, R63; the patterns are its G1 and G2; log 7). -/
def Obligations.EncodeOfDecodeIsTheWord : Prop :=
  ∀ (op : Word) (i : Instr), decodeWord op = .ok i → encode i = op

/-- The decoder rejects exactly the words of R64's table, and by the word itself (the table is the
spec's own derivation from its patterns G1, G2 and its decisions D3 and D4; log 7). -/
def Obligations.DecoderRejectsExactlyTheUnimplementedSpace : Prop :=
  ∀ op : Word, decodeWord op = .error (.unimplementedOpcode op) ↔ UnimplementedWord op.toNat

/-- The opcode map's rows are pairwise exclusive (R61), and the decoder finds an instruction exactly for the words that match a
row (the patterns are the spec's G1 and G2, their literal digits its decision D3, log 7). -/
def Obligations.DecoderAgreesWithTheExclusiveOpcodeMap : Prop :=
  (∀ (op : Word) (r q : OpcodeRow), r ∈ opcodeMap → q ∈ opcodeMap → r.matchesWord op = true → q.matchesWord op = true → r = q) ∧
  ∀ op : Word, (∃ i, decodeWord op = .ok i) ↔ wordWellFormed op = true

/-! ## Fetch and step -/

/-- The fetch combines the bytes at `PC` and `PC + 1` big-endian when both are in bounds; at `PC >= 4096` it raises OutOfBounds of
`PC`, and at `PC = 4095` OutOfBounds of 4096 (R57). -/
def Obligations.FetchIsBigEndianAndChecked : Prop :=
  ∀ s : State,
    (s.pc.toNat + 1 < 4096 → ∃ op, s.fetch = .ok op ∧
      op.toNat = (s.readByte s.pc.toNat).toNat * 256 + (s.readByte (s.pc.toNat + 1)).toNat) ∧
    (4096 ≤ s.pc.toNat → s.fetch = .error (.outOfBounds s.pc.toNat)) ∧
    (s.pc.toNat = 4095 → s.fetch = .error (.outOfBounds 4096))

/-- When no key is awaited and the two bytes at the pc decode to an instruction, the step is that instruction's meaning at that state;
nothing is added around it. -/
def Obligations.StepRunsTheDecodedInstruction : Prop :=
  ∀ (s : State) (i : Instr), FetchReady s → InstrAtPc s i → step s = exec i s

/-- While a key is awaited a step answers the same state, whatever the pc (R113; that it answers Ok is the spec's decision D20,
log 20). -/
def Obligations.StepWhileAwaitingKeyChangesNothing : Prop :=
  ∀ (s : State) (r : Nibble) (n : Nat), s.blk = .awaitingKey r →
    step s = .next s ∧ s.transactAll (List.replicate n .step) = s

/-- A step raises UnimplementedOpcode exactly when it fetches a word of R64's table, with that word and the pc (R118; the table is the
spec's own derivation from its patterns and its decisions D3 and D4, log 7). -/
def Obligations.StepRaisesUnimplementedExactlyForItsWords : Prop :=
  ∀ (s : State) (op pc : Word), step s = .fault (.unimplementedOpcode op pc) ↔
    FetchReady s ∧ op.toNat = opcodeAtPc s ∧ pc = s.pc ∧ UnimplementedWord (opcodeAtPc s)

/-- The errors of a step, complete (R122, the spec's own derivation): the fetch's OutOfBounds; UnimplementedOpcode; RET's
StackUnderflow on an empty stack; CALL's StackOverflow on a full one; OutOfBounds of DRW, LD B, LD [I] and LD Vx,[I]. No other
instruction raises. Which address an OutOfBounds records is the spec's decision D7 (R121, log 15); that fetch comes before decode and
decode before the instruction's own error is its decision D15 (R124, log 15); the patterns are its G1, G2 and D3 (log 7). -/
def Obligations.StepErrorsAreThoseOfTheList : Prop :=
  ∀ (s : State) (e : Fault), step s = .fault e → s.blk = .running ∧
    ((4095 ≤ s.pc.toNat ∧ e = .outOfBounds (max s.pc.toNat 4096)) ∨
     (s.pc.toNat < 4095 ∧ UnimplementedWord (opcodeAtPc s) ∧ e = .unimplementedOpcode (BitVec.ofNat 16 (opcodeAtPc s)) s.pc) ∨
     (s.pc.toNat < 4095 ∧ InstrAtPc s .ret ∧ s.stack = [] ∧ e = .stackUnderflow) ∨
     (s.pc.toNat < 4095 ∧ (∃ nnn, InstrAtPc s (.call nnn)) ∧ 16 ≤ s.stack.length ∧ e = .stackOverflow) ∨
     (s.pc.toNat < 4095 ∧ e = .outOfBounds (max s.idx.toNat 4096) ∧
       ((∃ x y n, InstrAtPc s (.drw x y n)) ∨ (∃ x, InstrAtPc s (.ldB x)) ∨ (∃ x, InstrAtPc s (.storeRegs x)) ∨
        ∃ x, InstrAtPc s (.loadRegs x))))

/-- No step and no instruction is refused: every step answers Ok or one of the four errors (R117). -/
def Obligations.NothingIsRefused : Prop :=
  (∀ (s : State) (r : Refusal), step s ≠ .refused r) ∧ ∀ (i : Instr) (s : State) (r : Refusal), exec i s ≠ .refused r

/-- The address an OutOfBounds records lies in 4096 to 0xFFFF (R121, the spec's own derivation from R40; log 15). -/
def Obligations.RecordedAddressLiesBetween4096And65535 : Prop :=
  ∀ (s : State) (a : Nat), step s = .fault (.outOfBounds a) → 4096 ≤ a ∧ a ≤ 0xFFFF

/-- A step that raises leaves the whole state as it was, so any number of further steps leaves it too and raises the same error again
(R125, R126; the spec's decision D6, log 8). -/
def Obligations.ErrorLeavesTheStateAndRepeats : Prop :=
  ∀ (s : State) (e : Fault) (n : Nat), step s = .fault e →
    s.transactAll (List.replicate n .step) = s ∧
    (s.transactAll (List.replicate n .step)).transact .step = (s, .error e)

/-! ## Control transfer (40_control.md) -/

/-- JP NNN sets the pc to its operand and changes nothing else (R74). -/
def Obligations.JumpSetsPcToItsOperand : Prop :=
  ∀ (nnn : Addr12) (s : State), ∃ t, exec (.jp nnn) s = .next t ∧ t.pc.toNat = nnn.toNat ∧ SameOutside [] [] s t

/-- CALL NNN pushes `PC + 2` and goes to its operand while the stack holds fewer than 16 entries, and raises StackOverflow when it is
full (R75, R120; that the pushed value is `PC + 2` is the spec's decision D5, log 12). -/
def Obligations.CallPushesTheNextAddressOrOverflows : Prop :=
  ∀ (nnn : Addr12) (s : State),
    (s.stack.length < 16 → ∃ t a, exec (.call nnn) s = .next t ∧ t.stack = a :: s.stack ∧ a.toNat = (s.pc.toNat + 2) % 65536 ∧
      t.pc.toNat = nnn.toNat ∧ SameOutside [] [.stack] s t) ∧
    (16 ≤ s.stack.length → exec (.call nnn) s = .fault .stackOverflow)

/-- RET pops one address and sets the pc to it, or raises StackUnderflow when the stack is empty (R73). -/
def Obligations.ReturnPopsTheTopOrUnderflows : Prop :=
  ∀ s : State,
    (∀ a rest, s.stack = a :: rest → ∃ t, exec .ret s = .next t ∧ t.pc = a ∧ t.stack = rest ∧ SameOutside [] [.stack] s t) ∧
    (s.stack = [] → exec .ret s = .fault .stackUnderflow)

/-- A RET in any later state with the stack as the CALL left it returns to the address after the CALL, and the stack is again what it was
before the CALL (95_test_vectors.md S7 as the spec reads it, D5, log 12). -/
def Obligations.ReturnUndoesCall : Prop :=
  ∀ (nnn : Addr12) (s : State), s.stack.length < 16 → ∃ t, exec (.call nnn) s = .next t ∧
    ∀ u : State, u.stack = t.stack → ∃ w, exec .ret u = .next w ∧ PcMovesBy 2 s w ∧ w.stack = s.stack

/-- SE Vx,NN and SNE Vx,NN skip (pc on by 4, else by 2) exactly when the register equals, or differs from, the immediate; nothing else
changes (R76, R77). -/
def Obligations.SkipsOnAnImmediate : Prop :=
  ∀ (x : Nibble) (nn : Byte) (s : State),
    (∃ t, exec (.seImm x nn) s = .next t ∧ PcMovesBy (if (s.getV x).toNat = nn.toNat then 4 else 2) s t ∧ SameOutside [] [] s t) ∧
    ∃ t, exec (.sneImm x nn) s = .next t ∧ PcMovesBy (if (s.getV x).toNat = nn.toNat then 2 else 4) s t ∧ SameOutside [] [] s t

/-- SE Vx,Vy and SNE Vx,Vy skip exactly when the two registers are equal, or differ; nothing else changes (R78, R79). -/
def Obligations.SkipsOnTwoRegisters : Prop :=
  ∀ (x y : Nibble) (s : State),
    (∃ t, exec (.seReg x y) s = .next t ∧ PcMovesBy (if (s.getV x).toNat = (s.getV y).toNat then 4 else 2) s t ∧
      SameOutside [] [] s t) ∧
    ∃ t, exec (.sneReg x y) s = .next t ∧ PcMovesBy (if (s.getV x).toNat = (s.getV y).toNat then 2 else 4) s t ∧
      SameOutside [] [] s t

/-- JP V0,NNN sets the pc to the unreduced sum of its operand and `V[0]`, at most 0x10FE (R80; that the sum is not reduced to 12 bits is
the spec's own derivation, log 20). -/
def Obligations.JumpWithOffsetAddsV0 : Prop :=
  ∀ (nnn : Addr12) (s : State), ∃ t, exec (.jpV0 nnn) s = .next t ∧ t.pc.toNat = nnn.toNat + (s.getV 0).toNat ∧
    t.pc.toNat ≤ 0x10FE ∧ SameOutside [] [] s t

/-- The next-PC law (R70): after an instruction that does not raise the pc is the one of the instruction's class, and a step that raises
leaves the pc (the last is the spec's decision D6, R18, log 8; that JP V0's sum is not reduced to 12 bits is its own derivation, R80,
log 20). -/
def Obligations.NextPcFollowsTheClassOfTheInstruction : Prop :=
  (∀ (i : Instr) (s t : State), exec i s = .next t → t.pc.toNat = pcAfter i s) ∧
  ∀ (s : State) (e : Fault), step s = .fault e → (s.transact .step).1.pc = s.pc

/-! ## Registers and ALU (41_alu.md) -/

/-- LD Vx,NN assigns, ADD Vx,NN adds modulo 256; neither writes a flag, and nothing else but the pc changes (R84, R85). -/
def Obligations.ImmediateLoadAndAdd : Prop :=
  ∀ (x : Nibble) (nn : Byte) (s : State),
    (∃ t, exec (.ldImm x nn) s = .next t ∧ t.getV x = nn ∧ PcMovesBy 2 s t ∧ SameOutside [x] [] s t) ∧
    ∃ t, exec (.addImm x nn) s = .next t ∧ (t.getV x).toNat = ((s.getV x).toNat + nn.toNat) % 256 ∧ PcMovesBy 2 s t ∧
      SameOutside [x] [] s t

/-- LD Vx,Vy copies; OR, AND and XOR combine the registers bit by bit; no flag is written, and nothing else but the pc changes
(R86, R87, R88, R89). -/
def Obligations.MoveAndBitwiseOperations : Prop :=
  ∀ (x y : Nibble) (s : State),
    (∃ t, exec (.ldReg x y) s = .next t ∧ t.getV x = s.getV y ∧ PcMovesBy 2 s t ∧ SameOutside [x] [] s t) ∧
    (∃ t, exec (.orReg x y) s = .next t ∧ (∀ k, (t.getV x).getLsbD k = ((s.getV x).getLsbD k || (s.getV y).getLsbD k)) ∧
      PcMovesBy 2 s t ∧ SameOutside [x] [] s t) ∧
    (∃ t, exec (.andReg x y) s = .next t ∧ (∀ k, (t.getV x).getLsbD k = ((s.getV x).getLsbD k && (s.getV y).getLsbD k)) ∧
      PcMovesBy 2 s t ∧ SameOutside [x] [] s t) ∧
    ∃ t, exec (.xorReg x y) s = .next t ∧ (∀ k, (t.getV x).getLsbD k = ((s.getV x).getLsbD k ^^ (s.getV y).getLsbD k)) ∧
      PcMovesBy 2 s t ∧ SameOutside [x] [] s t

/-- ADD Vx,Vy: `V[X]` is the sum modulo 256 and `VF` is 1 exactly when the sum exceeds 255, written every time; with `X = 0xF` the flag
stands (R90, R83; the order of the two writes is the spec's decision D9, log 13). -/
def Obligations.AddRegisterGivesSumAndCarry : Prop :=
  ∀ (x y : Nibble) (s : State), ∃ t, exec (.addReg x y) s = .next t ∧
    (x ≠ 15 → (t.getV x).toNat = ((s.getV x).toNat + (s.getV y).toNat) % 256) ∧
    (t.getV 15).toNat = (if (s.getV x).toNat + (s.getV y).toNat > 255 then 1 else 0) ∧
    PcMovesBy 2 s t ∧ SameOutside [x, 15] [] s t

/-- SUB Vx,Vy: `V[X]` is `V[X] - V[Y]` modulo 256 and `VF` is 1 exactly when there is no borrow (R91, R83; the order of the two writes is
the spec's decision D9, log 13). -/
def Obligations.SubtractGivesDifferenceAndNoBorrow : Prop :=
  ∀ (x y : Nibble) (s : State), ∃ t, exec (.sub x y) s = .next t ∧
    (x ≠ 15 → (t.getV x).toNat = ((s.getV x).toNat + 256 - (s.getV y).toNat) % 256) ∧
    (t.getV 15).toNat = (if (s.getV x).toNat ≥ (s.getV y).toNat then 1 else 0) ∧
    PcMovesBy 2 s t ∧ SameOutside [x, 15] [] s t

/-- SUBN Vx,Vy: `V[X]` is `V[Y] - V[X]` modulo 256 and `VF` is 1 exactly when there is no borrow (R93, R83; the order of the two writes
is the spec's decision D9, log 13). -/
def Obligations.SubtractReverseGivesDifferenceAndNoBorrow : Prop :=
  ∀ (x y : Nibble) (s : State), ∃ t, exec (.subn x y) s = .next t ∧
    (x ≠ 15 → (t.getV x).toNat = ((s.getV y).toNat + 256 - (s.getV x).toNat) % 256) ∧
    (t.getV 15).toNat = (if (s.getV y).toNat ≥ (s.getV x).toNat then 1 else 0) ∧
    PcMovesBy 2 s t ∧ SameOutside [x, 15] [] s t

/-- SHR: the source is `V[Y]` when SHIFT_USES_VY, else `V[X]`; `V[X]` is its half, `VF` its bit 0 before the shift; `V[Y]` is not written
unless it is `V[X]` or `VF` (R92, R83; the order of the two writes is the spec's decision D9, log 13). -/
def Obligations.ShiftRightHalvesTheSource : Prop :=
  ∀ (x y : Nibble) (s : State), ∃ t src, exec (.shr x y) s = .next t ∧ src = s.getV (if s.shiftUsesVy = true then y else x) ∧
    (x ≠ 15 → (t.getV x).toNat = src.toNat / 2) ∧ (t.getV 15).toNat = src.toNat % 2 ∧
    PcMovesBy 2 s t ∧ SameOutside [x, 15] [] s t

/-- SHL: the source is `V[Y]` when SHIFT_USES_VY, else `V[X]`; `V[X]` is its double modulo 256, `VF` its bit 7 before the shift (R94, R83;
the order of the two writes is the spec's decision D9, log 13). -/
def Obligations.ShiftLeftDoublesTheSource : Prop :=
  ∀ (x y : Nibble) (s : State), ∃ t src, exec (.shl x y) s = .next t ∧ src = s.getV (if s.shiftUsesVy = true then y else x) ∧
    (x ≠ 15 → (t.getV x).toNat = src.toNat * 2 % 256) ∧ (t.getV 15).toNat = src.toNat / 128 ∧
    PcMovesBy 2 s t ∧ SameOutside [x, 15] [] s t

/-- RND Vx,NN: one call to the Randomness Source whatever the mask; `V[X]` is its answer AND the mask, so it has no bit the mask lacks; an
answer queued as input is the one taken, and is used up (R95, R135; that the answer is any byte is the spec's decision D27, log 2). -/
def Obligations.RandomIsTheAnswerUnderTheMask : Prop :=
  ∀ (x : Nibble) (nn : Byte) (s : State), ∃ t, exec (.rnd x nn) s = .next t ∧
    (∀ k, (t.getV x).getLsbD k = (s.rngAnswer.getLsbD k && nn.getLsbD k)) ∧
    (∀ r rest, s.ports.rng = r :: rest → t.getV x = r &&& nn ∧ t.ports.rng = rest) ∧
    t.ports.calls = .rngByte :: s.ports.calls ∧ t.ports.keys = s.ports.keys ∧ t.ports.collisions = s.ports.collisions ∧
    PcMovesBy 2 s t ∧ SameOutside [x] [.ports] s t

/-! ## Index register and memory (42_index_memory.md) -/

/-- LD I,NNN assigns, ADD I,Vx adds modulo 65536, LD F,Vx is the whole byte times 5; no flag and no other state but the pc changes
(R97, R98, R99). -/
def Obligations.IndexLoadAddAndGlyph : Prop :=
  (∀ (nnn : Addr12) (s : State), ∃ t, exec (.ldI nnn) s = .next t ∧ t.idx.toNat = nnn.toNat ∧ PcMovesBy 2 s t ∧
    SameOutside [] [.idx] s t) ∧
  ∀ (x : Nibble) (s : State),
    (∃ t, exec (.addI x) s = .next t ∧ t.idx.toNat = (s.idx.toNat + (s.getV x).toNat) % 65536 ∧ PcMovesBy 2 s t ∧
      SameOutside [] [.idx] s t) ∧
    ∃ t, exec (.ldF x) s = .next t ∧ t.idx.toNat = (s.getV x).toNat * 5 ∧ PcMovesBy 2 s t ∧ SameOutside [] [.idx] s t

/-- LD B,Vx writes hundreds, tens and units to the three bytes at `I` and no other byte; it raises when one of them is out of bounds, with
the lowest such address (R100; which address is recorded is the spec's decision D7, log 15). -/
def Obligations.DecimalStoreWritesThreeDigits : Prop :=
  ∀ (x : Nibble) (s : State),
    (s.idxAddr + 2 < 4096 → ∃ t, exec (.ldB x) s = .next t ∧
      (t.readByte s.idxAddr).toNat = (s.getV x).toNat / 100 ∧
      (t.readByte (s.idxAddr + 1)).toNat = (s.getV x).toNat / 10 % 10 ∧
      (t.readByte (s.idxAddr + 2)).toNat = (s.getV x).toNat % 10 ∧
      SameBytesOutside s.idxAddr 3 s t ∧ PcMovesBy 2 s t ∧ SameOutside [] [.mem] s t) ∧
    (4096 ≤ s.idxAddr + 2 → exec (.ldB x) s = .fault (.outOfBounds (if 4096 ≤ s.idxAddr then s.idxAddr else 4096)))

/-- LD [I],Vx stores `V[0]` to `V[X]` at `I` upwards and no other byte, and adds `X + 1` to `I`; it raises when a byte is out of bounds,
with the lowest such address (R101; which address is recorded is the spec's decision D7, log 15). -/
def Obligations.BlockStoreWritesTheRegisters : Prop :=
  ∀ (x : Nibble) (s : State),
    (s.idxAddr + x.toNat < 4096 → ∃ t, exec (.storeRegs x) s = .next t ∧
      (∀ r : Nibble, r.toNat ≤ x.toNat → t.readByte (s.idxAddr + r.toNat) = s.getV r) ∧
      SameBytesOutside s.idxAddr (x.toNat + 1) s t ∧ t.idx.toNat = (s.idx.toNat + x.toNat + 1) % 65536 ∧
      PcMovesBy 2 s t ∧ SameOutside [] [.mem, .idx] s t) ∧
    (4096 ≤ s.idxAddr + x.toNat →
      exec (.storeRegs x) s = .fault (.outOfBounds (if 4096 ≤ s.idxAddr then s.idxAddr else 4096)))

/-- LD Vx,[I] loads `V[0]` to `V[X]` from `I` upwards, leaves the registers above `X`, and adds `X + 1` to `I`; it raises when a byte is
out of bounds, with the lowest such address (R102; which address is recorded is the spec's decision D7, log 15). -/
def Obligations.BlockLoadReadsTheRegisters : Prop :=
  ∀ (x : Nibble) (s : State),
    (s.idxAddr + x.toNat < 4096 → ∃ t, exec (.loadRegs x) s = .next t ∧
      (∀ r : Nibble, r.toNat ≤ x.toNat → t.getV r = s.readByte (s.idxAddr + r.toNat)) ∧
      (∀ r : Nibble, x.toNat < r.toNat → t.getV r = s.getV r) ∧
      t.idx.toNat = (s.idx.toNat + x.toNat + 1) % 65536 ∧ PcMovesBy 2 s t ∧
      ∀ p : StatePart, p ≠ .idx → p.same s t) ∧
    (4096 ≤ s.idxAddr + x.toNat →
      exec (.loadRegs x) s = .fault (.outOfBounds (if 4096 ≤ s.idxAddr then s.idxAddr else 4096)))

/-- Block store, then block load from the same place in any state with that memory, restores the registers, and `I` ends where the store
left it (95_test_vectors.md S6, for every X). -/
def Obligations.BlockLoadRestoresWhatBlockStoreSaved : Prop :=
  ∀ (x : Nibble) (s : State), s.idxAddr + x.toNat < 4096 → ∃ t, exec (.storeRegs x) s = .next t ∧
    ∀ u : State, u.mem = t.mem → u.idx = s.idx → ∃ w, exec (.loadRegs x) u = .next w ∧ w.idx = t.idx ∧
      ∀ r : Nibble, r.toNat ≤ x.toNat → w.getV r = s.getV r

/-- Self-modifying code: when LD [I],Vx leaves a pc both of whose bytes it stored, the next fetch reads the stored registers as its opcode
(R54, R148, the spec's own derivation). -/
def Obligations.StoredBytesAreFetchedNext : Prop :=
  ∀ (x k : Nibble) (s : State), k.toNat + 1 ≤ x.toNat → s.idxAddr + x.toNat < 4096 →
    (s.pc.toNat + 2) % 65536 = s.idxAddr + k.toNat →
    ∃ t op, exec (.storeRegs x) s = .next t ∧ t.fetch = .ok op ∧ op.toNat = (s.getV k).toNat * 256 + (s.getV (k + 1)).toNat

/-! ## Devices (43_devices.md) -/

/-- CLS makes one `clear()` call and moves the pc on; nothing else changes (R103; the call is recorded in the model's own `ports`, log 3). -/
def Obligations.ClearScreenMakesOneCall : Prop :=
  ∀ s : State, ∃ t, exec .cls s = .next t ∧ t.ports.calls = .clear :: s.ports.calls ∧ t.ports.rng = s.ports.rng ∧
    t.ports.keys = s.ports.keys ∧ t.ports.collisions = s.ports.collisions ∧ PcMovesBy 2 s t ∧ SameOutside [] [.ports] s t

/-- DRW reads `N` bytes at `I` and hands them to one `draw` call at (`V[X]` mod 64, `V[Y]` mod 32); `VF` is 1 exactly when the answer is a
collision; `N = 0` reads nothing and never raises; a byte out of bounds raises, with the lowest such address (R104, R133; the answer is
any Boolean by D28, `N = 0` is D19, the address D7; logs 2, 15, 19). -/
def Obligations.DrawHandsTheSpriteToTheDisplay : Prop :=
  ∀ (x y n : Nibble) (s : State),
    (n.toNat = 0 ∨ s.idxAddr + n.toNat ≤ 4096 → ∃ t rows, exec (.drw x y n) s = .next t ∧
      rows.length = n.toNat ∧ (∀ k, k < n.toNat → rows[k]? = some (s.readByte (s.idxAddr + k))) ∧
      t.ports.calls = .draw ((s.getV x).toNat % 64) ((s.getV y).toNat % 32) rows :: s.ports.calls ∧
      (t.getV 15).toNat = (if s.drawAnswer ((s.getV x).toNat % 64) ((s.getV y).toNat % 32) rows = true then 1 else 0) ∧
      (∀ c rest, s.ports.collisions = c :: rest →
        (t.getV 15).toNat = (if c = true then 1 else 0) ∧ t.ports.collisions = rest) ∧
      t.ports.rng = s.ports.rng ∧ t.ports.keys = s.ports.keys ∧ PcMovesBy 2 s t ∧ SameOutside [15] [.ports] s t) ∧
    (n.toNat ≠ 0 → 4096 < s.idxAddr + n.toNat →
      exec (.drw x y n) s = .fault (.outOfBounds (if 4096 ≤ s.idxAddr then s.idxAddr else 4096)))

/-- SKP and SKNP ask the keypad once for the key code `V[X]`, whatever its value, and skip exactly when the answer is pressed, or not
pressed; an answer queued as input is the one taken (R105, R106, R134; the answer is any Boolean by D10 and D28, log 2). -/
def Obligations.KeySkipsFollowTheAnswer : Prop :=
  ∀ (x : Nibble) (s : State),
    (∃ t, exec (.skp x) s = .next t ∧ PcMovesBy (if s.pressedAnswer (s.getV x) = true then 4 else 2) s t ∧
      (∀ p rest, s.ports.keys = p :: rest → PcMovesBy (if p = true then 4 else 2) s t ∧ t.ports.keys = rest) ∧
      t.ports.calls = .isPressed (s.getV x) :: s.ports.calls ∧ t.ports.rng = s.ports.rng ∧
      t.ports.collisions = s.ports.collisions ∧ SameOutside [] [.ports] s t) ∧
    ∃ t, exec (.sknp x) s = .next t ∧ PcMovesBy (if s.pressedAnswer (s.getV x) = true then 2 else 4) s t ∧
      (∀ p rest, s.ports.keys = p :: rest → PcMovesBy (if p = true then 2 else 4) s t ∧ t.ports.keys = rest) ∧
      t.ports.calls = .isPressed (s.getV x) :: s.ports.calls ∧ t.ports.rng = s.ports.rng ∧
      t.ports.collisions = s.ports.collisions ∧ SameOutside [] [.ports] s t

/-- LD Vx,DT reads the delay timer; LD DT,Vx and LD ST,Vx set a timer; the tone is on exactly when the value set in `ST` is not 0
(R107, R109, R110). -/
def Obligations.TimerLoadsAndStores : Prop :=
  ∀ (x : Nibble) (s : State),
    (∃ t, exec (.ldVxDt x) s = .next t ∧ t.getV x = s.dt ∧ PcMovesBy 2 s t ∧ SameOutside [x] [] s t) ∧
    (∃ t, exec (.ldDtVx x) s = .next t ∧ t.dt = s.getV x ∧ PcMovesBy 2 s t ∧ SameOutside [] [.dt] s t) ∧
    ∃ t, exec (.ldStVx x) s = .next t ∧ t.st = s.getV x ∧ (t.audioOut = true ↔ (s.getV x).toNat > 0) ∧ PcMovesBy 2 s t ∧
      SameOutside [] [.st] s t

/-- LD Vx,K enters the wait for the register and holds the pc; no register is written, no step then moves the pc, and the resumption
moves it on by 2 (R108). -/
def Obligations.KeyWaitHoldsThePc : Prop :=
  ∀ (x : Nibble) (s : State), ∃ t, exec (.ldVxK x) s = .next t ∧ t.blk = .awaitingKey x ∧ t.pc = s.pc ∧ SameOutside [] [.blk] s t ∧
    (t.transact .step).1.pc = s.pc ∧ ∀ k, PcMovesBy 2 s (t.resumeWithKey k)

/-- `resume_with_key(k)` in AwaitingKey(r) writes `k` to `V[r]`, moves the pc on by 2 and runs again; nothing else changes (R114). -/
def Obligations.ResumeWritesTheKeyAndAdvances : Prop :=
  ∀ (s : State) (r k : Nibble), s.blk = .awaitingKey r →
    ((s.resumeWithKey k).getV r).toNat = k.toNat ∧ PcMovesBy 2 s (s.resumeWithKey k) ∧ (s.resumeWithKey k).blk = .running ∧
    SameOutside [r] [.blk] s (s.resumeWithKey k)

/-- The whole wait (95_test_vectors.md S10): after LD Vx,K any number of steps changes nothing, then the resumption puts the key in the
register and the pc is exactly 2 beyond where the wait began; a second resumption, in Running, is ignored (the last by the spec's
decision D11, log 18). -/
def Obligations.KeyWaitEndsWithTheResumption : Prop :=
  ∀ (x k k' : Nibble) (n : Nat) (s : State), ∃ t w, exec (.ldVxK x) s = .next t ∧
    t.transactAll (List.replicate n .step) = t ∧ t.transactAll (List.replicate n .step ++ [.resumeWithKey k]) = w ∧
    (w.getV x).toNat = k.toNat ∧ PcMovesBy 2 s w ∧ w.blk = .running ∧ (w.transact (.resumeWithKey k')).1 = w

/-! ## The host's transactions (60_exceptions.md, 70_reset_and_hazards.md) -/

/-- `tick_timers()` takes 1 from each timer that is not 0, and changes nothing else, in either blocked-input state (R130). -/
def Obligations.TickDecrementsTimersToZero : Prop :=
  ∀ s : State, ∃ t, s.transact .tickTimers = (t, .ok) ∧
    t.dt.toNat = (if s.dt.toNat > 0 then s.dt.toNat - 1 else 0) ∧ t.st.toNat = (if s.st.toNat > 0 then s.st.toNat - 1 else 0) ∧
    t.pc = s.pc ∧ SameOutside [] [.dt, .st] s t

/-- `load_rom(bytes)` that fits from 0x200 is accepted and writes exactly those bytes; one that does not is rejected (R143). It
says so of every state, also one whose program has begun: that a load is accepted at any time is the model's choice (log 16), since
the spec makes the time a host duty (R129, R149). -/
def Obligations.RomLoadWritesTheProgram : Prop :=
  ∀ (s : State) (bs : List Byte),
    (0x200 + bs.length ≤ 4096 → ∃ t, s.transact (.loadRom bs) = (t, .accepted) ∧
      (∀ k, k < bs.length → bs[k]? = some (t.readByte (0x200 + k))) ∧ SameBytesOutside 0x200 bs.length s t ∧ t.pc = s.pc ∧
      SameOutside [] [.mem] s t) ∧
    (4096 < 0x200 + bs.length → (s.transact (.loadRom bs)).2 = .rejected)

/-- A rejected load writes nothing (R144; the spec's decision D25, log 16): a sequence of 3585 bytes or more leaves the state as it was,
and one of 3584 bytes is accepted, in every state (the time of a load is the model's choice, log 16). -/
def Obligations.RejectedRomChangesNothing : Prop :=
  ∀ (s : State) (bs : List Byte), (3584 < bs.length → s.transact (.loadRom bs) = (s, .rejected)) ∧
    (bs.length = 3584 → (s.transact (.loadRom bs)).2 = .accepted)

/-- `soft_reset()` puts registers, `I`, `PC`, `STACK` and `BLK` to their initial values and leaves `MEM`, `DT`, `ST` and SHIFT_USES_VY
(R145; the timers and `BLK` are the spec's decision D13, log 14). -/
def Obligations.SoftResetKeepsMemoryAndTimers : Prop :=
  ∀ s : State, ∃ t, s.transact .softReset = (t, .ok) ∧ (∀ r, t.getV r = 0) ∧ t.idx = 0 ∧ t.pc = 0x200 ∧ t.stack = [] ∧
    t.blk = .running ∧ t.mem = s.mem ∧ t.dt = s.dt ∧ t.st = s.st ∧ t.shiftUsesVy = s.shiftUsesVy ∧ t.ports = s.ports

/-- `construct(b)` (R141): the font at 0x000 to 0x04F (its bytes are the spec's G3, log 6), 0x00 in every other cell, registers 0, pc
0x200, stack empty, SHIFT_USES_VY as given; `I`, `DT`, `ST` 0 and Running (the spec's decision D12, log 14). -/
def Obligations.ConstructionGivesTheInitialState : Prop :=
  ∀ b : Bool,
    ((State.construct b).mem.readBytes 0 80 =
      [0xF0, 0x90, 0x90, 0x90, 0xF0, 0x20, 0x60, 0x20, 0x20, 0x70, 0xF0, 0x10, 0xF0, 0x80, 0xF0, 0xF0, 0x10, 0xF0, 0x10, 0xF0] ++
      [0x90, 0x90, 0xF0, 0x10, 0x10, 0xF0, 0x80, 0xF0, 0x10, 0xF0, 0xF0, 0x80, 0xF0, 0x90, 0xF0, 0xF0, 0x10, 0x20, 0x40, 0x40] ++
      [0xF0, 0x90, 0xF0, 0x90, 0xF0, 0xF0, 0x90, 0xF0, 0x10, 0xF0, 0xF0, 0x90, 0xF0, 0x90, 0x90, 0xE0, 0x90, 0xE0, 0x90, 0xE0] ++
      [0xF0, 0x80, 0x80, 0x80, 0xF0, 0xE0, 0x90, 0x90, 0x90, 0xE0, 0xF0, 0x80, 0xF0, 0x80, 0xF0, 0xF0, 0x80, 0xF0, 0x80, 0x80]) ∧
    (∀ a, 80 ≤ a → a < 4096 → (State.construct b).readByte a = 0) ∧
    (∀ r, (State.construct b).getV r = 0) ∧ (State.construct b).idx = 0 ∧ (State.construct b).pc = 0x200 ∧
    (State.construct b).stack = [] ∧ (State.construct b).dt = 0 ∧ (State.construct b).st = 0 ∧
    (State.construct b).blk = .running ∧ (State.construct b).shiftUsesVy = b

/-- The blocked-input state machine (R112): Running becomes AwaitingKey(r) only by a step of LD Vr,K; AwaitingKey becomes Running only by
the resumption or a soft reset (the soft reset is the spec's decision D13, log 14); and a wait's register never changes. -/
def Obligations.BlockedInputTransitionsAreTheListed : Prop :=
  ∀ (s : State) (τ : Transaction),
    (∀ r, s.blk = .running → (s.transact τ).1.blk = .awaitingKey r →
      τ = .step ∧ FetchReady s ∧ InstrAtPc s (.ldVxK r)) ∧
    (∀ r, s.blk = .awaitingKey r → (s.transact τ).1.blk = .running → (∃ k, τ = .resumeWithKey k) ∨ τ = .softReset) ∧
    ∀ r q, s.blk = .awaitingKey r → (s.transact τ).1.blk = .awaitingKey q → r = q

/-! ## Whole-machine rules -/

/-- A machine just constructed, the reset state among them, meets the invariant. -/
def Obligations.ConstructionMeetsTheInvariant : Prop :=
  (∀ b : Bool, (State.construct b).Inv) ∧ State.reset.Inv

/-- Every step keeps the invariant: canonical memory in bounds, a stack of at most 16 return addresses each at most 0x1000, a pc of at most
0x10FE, and a wait only at a pc that was fetched from (R5, R28, R71, R27; the bounds of the pc and of the return addresses
are the spec's own derivation, and rest on its decision D5, log 12). -/
def Obligations.EveryStepKeepsTheInvariant : Prop :=
  ∀ s t : State, s.Inv → step s = .next t → t.Inv

/-- Every transaction of the host keeps the invariant, so it holds of every machine a host constructs and drives in any order (a
load at any time is the model's choice, log 16; an error keeps the state by the spec's decision D6, log 8; a soft reset ends a wait by
its decision D13, log 14). -/
def Obligations.EveryDrivenMachineMeetsTheInvariant : Prop :=
  (∀ (s : State) (τ : Transaction), s.Inv → (s.transact τ).1.Inv) ∧
  ∀ (b : Bool) (τs : List Transaction), ((State.construct b).transactAll τs).Inv

/-- SHIFT_USES_VY is set by construction and no transaction changes it (R32). -/
def Obligations.ShiftFlagIsFixedAtConstruction : Prop :=
  (∀ (s : State) (τ : Transaction), (s.transact τ).1.shiftUsesVy = s.shiftUsesVy) ∧
  ∀ (b : Bool) (τs : List Transaction), ((State.construct b).transactAll τs).shiftUsesVy = b

/-- Only SHR and SHL read SHIFT_USES_VY: for any other instruction two states that differ in it alone give answers that differ in it
alone, and the same errors (R32). Both runs are given the same host answers: for RND, SKP, SKNP and DRW that equal queues and equal
counts of calls give equal answers is the model's choice (log 2). -/
def Obligations.OnlyShiftsReadTheShiftFlag : Prop :=
  ∀ (i : Instr) (s : State) (b : Bool), (∀ x y, i ≠ .shr x y ∧ i ≠ .shl x y) →
    (∀ t, exec i s = .next t → exec i { s with shiftUsesVy := b } = .next { t with shiftUsesVy := b }) ∧
    ∀ e, exec i s = .fault e → exec i { s with shiftUsesVy := b } = .fault e

/-- Only LD B and LD [I] write memory, and only the bytes they address (R22, R37, R44). -/
def Obligations.OnlyTheStoresWriteMemory : Prop :=
  ∀ (s t : State) (a : Nat), step s = .next t → t.readByte a ≠ s.readByte a →
    FetchReady s ∧ ∃ x, (InstrAtPc s (.ldB x) ∧ s.idxAddr ≤ a ∧ a < s.idxAddr + 3) ∨
      (InstrAtPc s (.storeRegs x) ∧ s.idxAddr ≤ a ∧ a ≤ s.idxAddr + x.toNat)

/-- A general register changes only as an instruction's destination, within the block of LD Vx,[I], or as `VF` by one of the six flag
writers (R23, R24, the latter the spec's own derivation). -/
def Obligations.OnlyDestinationsAndFlagsChangeRegisters : Prop :=
  ∀ (i : Instr) (s t : State) (r : Nibble), exec i s = .next t → t.getV r ≠ s.getV r →
    destination i = some r ∨ (writesFlag i = true ∧ r = 15) ∨ ∃ x, i = .loadRegs x ∧ r.toNat ≤ x.toNat

/-- `I`, `STACK`, `DT`, `ST` and `BLK` change only by the instructions the spec lists as their writers (R26, R28, R29, R30, R31). -/
def Obligations.OnlyListedInstructionsWriteControlState : Prop :=
  ∀ (i : Instr) (s t : State), exec i s = .next t →
    (t.idx ≠ s.idx → (∃ nnn, i = .ldI nnn) ∨ ∃ x, i = .addI x ∨ i = .ldF x ∨ i = .storeRegs x ∨ i = .loadRegs x) ∧
    (t.stack ≠ s.stack → i = .ret ∨ ∃ nnn, i = .call nnn) ∧
    (t.dt ≠ s.dt → ∃ x, i = .ldDtVx x) ∧ (t.st ≠ s.st → ∃ x, i = .ldStVx x) ∧ (t.blk ≠ s.blk → ∃ x, i = .ldVxK x)

/-- The kind of host call of each instruction, with its coordinates or key code: CLS, DRW, SKP, SKNP and RND make one, every other
instruction none, and a draw has at most 15 rows within 64 by 32 (R19, R133, R134, R135). Which bytes the rows of a draw are is left to
DrawHandsTheSpriteToTheDisplay; that `DXY0` makes a draw call is the spec's decision D19 (log 19); the calls are recorded in the model's
own `ports` (log 3). -/
def Obligations.EachInstructionMakesItsHostCall : Prop :=
  ∀ (i : Instr) (s t : State), exec i s = .next t →
    (∃ rows, t.ports.calls = hostCallsOf i s rows ++ s.ports.calls) ∧
    ∀ x y rows, t.ports.calls = .draw x y rows :: s.ports.calls → x < 64 ∧ y < 32 ∧ rows.length ≤ 15

/-! ## The host display -/

/-- A draw flips exactly the pixels the sprite covers, at either edge rule, and reports a collision exactly when a covered pixel was set
(R133; the bit order is the spec's G5, the edge rule its open parameter D18; a display model beside the core, log 11). -/
def Obligations.DrawFlipsTheCoveredPixels : Prop :=
  ∀ (g : Grid) (edge : DisplayEdge) (x y : Nat) (rows : List Byte), x < 64 → y < 32 → rows.length ≤ 15 →
    (∀ px py, px < 64 → py < 32 →
      (g.draw edge x y rows).pixel px py = (g.pixel px py ^^ covers edge x y rows px py)) ∧
    (g.collides edge x y rows = true ↔
      ∃ px py, px < 64 ∧ py < 32 ∧ g.pixel px py = true ∧ (g.draw edge x y rows).pixel px py = false)

/-- Drawing the same sprite twice leaves the pixels as they were, since it is composed by XOR; on a blank display the first draw reports
no collision (R133; log 11). -/
def Obligations.DrawTwiceRestoresTheDisplay : Prop :=
  ∀ (g : Grid) (edge : DisplayEdge) (x y : Nat) (rows : List Byte),
    (g.draw edge x y rows).draw edge x y rows = g ∧ Grid.blank.collides edge x y rows = false
end

