-- ==== Sys2Proof/Laws/Decode.lean ====
section
/-! SUPPORT. The fields of an encoded word, and a word put together from its fields (30_encoding.md R58). -/

namespace Sys2Proof

theorem wordNNN_toNat (p : Nibble) (nnn : Addr12) : (wordNNN p nnn).toNat = p.toNat * 4096 + nnn.toNat := by
  have h := nnn.isLt
  rw [show wordNNN p nnn = (p ++ nnn : BitVec (4 + 12)) from rfl, BitVec.toNat_append, ← Nat.shiftLeft_add_eq_or_of_lt h,
    Nat.shiftLeft_eq]

theorem wordXNN_toNat (p x : Nibble) (nn : Byte) : (wordXNN p x nn).toNat = p.toNat * 4096 + x.toNat * 256 + nn.toNat := by
  have h := nn.isLt
  have hx := x.isLt
  rw [show wordXNN p x nn = (p ++ x ++ nn : BitVec (4 + 4 + 8)) from rfl, BitVec.toNat_append, BitVec.toNat_append,
    ← Nat.shiftLeft_add_eq_or_of_lt h, ← Nat.shiftLeft_add_eq_or_of_lt hx, Nat.shiftLeft_eq, Nat.shiftLeft_eq]
  omega

theorem wordXYN_toNat (p x y n : Nibble) :
    (wordXYN p x y n).toNat = p.toNat * 4096 + x.toNat * 256 + y.toNat * 16 + n.toNat := by
  have hn := n.isLt
  have hx := x.isLt
  have hyn : (y ++ n : BitVec (4 + 4)).toNat = y.toNat * 16 + n.toNat := by
    rw [BitVec.toNat_append, ← Nat.shiftLeft_add_eq_or_of_lt hn, Nat.shiftLeft_eq]
  have hlt := (y ++ n : BitVec (4 + 4)).isLt
  rw [show wordXYN p x y n = ((p ++ x : BitVec (4 + 4)) ++ (y ++ n : BitVec (4 + 4)) : BitVec (4 + 4 + (4 + 4))) from rfl,
    BitVec.toNat_append, BitVec.toNat_append p x,
    ← Nat.shiftLeft_add_eq_or_of_lt hlt, ← Nat.shiftLeft_add_eq_or_of_lt hx, Nat.shiftLeft_eq, Nat.shiftLeft_eq, hyn]
  omega

theorem fieldN1_toNat (op : Word) : (fieldN1 op).toNat = op.toNat / 4096 := by
  have h := op.isLt
  simp only [fieldN1, BitVec.extractLsb'_toNat, Nat.shiftRight_eq_div_pow]
  omega

theorem fieldX_toNat (op : Word) : (fieldX op).toNat = op.toNat / 256 % 16 := by
  simp [fieldX, BitVec.extractLsb'_toNat, Nat.shiftRight_eq_div_pow]

theorem fieldY_toNat (op : Word) : (fieldY op).toNat = op.toNat / 16 % 16 := by
  simp [fieldY, BitVec.extractLsb'_toNat, Nat.shiftRight_eq_div_pow]

theorem fieldN_toNat (op : Word) : (fieldN op).toNat = op.toNat % 16 := by
  simp [fieldN, BitVec.extractLsb'_toNat]

theorem fieldNN_toNat (op : Word) : (fieldNN op).toNat = op.toNat % 256 := by
  simp [fieldNN, BitVec.extractLsb'_toNat]

theorem fieldNNN_toNat (op : Word) : (fieldNNN op).toNat = op.toNat % 4096 := by
  simp [fieldNNN, BitVec.extractLsb'_toNat]

@[simp] theorem fieldN1_wordNNN (p : Nibble) (nnn : Addr12) : fieldN1 (wordNNN p nnn) = p := by
  have hp := p.isLt
  have hnnn := nnn.isLt
  apply BitVec.eq_of_toNat_eq
  rw [fieldN1_toNat, wordNNN_toNat]
  omega

@[simp] theorem fieldNNN_wordNNN (p : Nibble) (nnn : Addr12) : fieldNNN (wordNNN p nnn) = nnn := by
  have hp := p.isLt
  have hnnn := nnn.isLt
  apply BitVec.eq_of_toNat_eq
  rw [fieldNNN_toNat, wordNNN_toNat]
  omega

@[simp] theorem fieldN1_wordXNN (p x : Nibble) (nn : Byte) : fieldN1 (wordXNN p x nn) = p := by
  have hp := p.isLt
  have hx := x.isLt
  have hnn := nn.isLt
  apply BitVec.eq_of_toNat_eq
  rw [fieldN1_toNat, wordXNN_toNat]
  omega

@[simp] theorem fieldX_wordXNN (p x : Nibble) (nn : Byte) : fieldX (wordXNN p x nn) = x := by
  have hp := p.isLt
  have hx := x.isLt
  have hnn := nn.isLt
  apply BitVec.eq_of_toNat_eq
  rw [fieldX_toNat, wordXNN_toNat]
  omega

@[simp] theorem fieldNN_wordXNN (p x : Nibble) (nn : Byte) : fieldNN (wordXNN p x nn) = nn := by
  have hp := p.isLt
  have hx := x.isLt
  have hnn := nn.isLt
  apply BitVec.eq_of_toNat_eq
  rw [fieldNN_toNat, wordXNN_toNat]
  omega

@[simp] theorem fieldN1_wordXYN (p x y n : Nibble) : fieldN1 (wordXYN p x y n) = p := by
  have hp := p.isLt
  have hx := x.isLt
  have hy := y.isLt
  have hn := n.isLt
  apply BitVec.eq_of_toNat_eq
  rw [fieldN1_toNat, wordXYN_toNat]
  omega

@[simp] theorem fieldX_wordXYN (p x y n : Nibble) : fieldX (wordXYN p x y n) = x := by
  have hp := p.isLt
  have hx := x.isLt
  have hy := y.isLt
  have hn := n.isLt
  apply BitVec.eq_of_toNat_eq
  rw [fieldX_toNat, wordXYN_toNat]
  omega

@[simp] theorem fieldY_wordXYN (p x y n : Nibble) : fieldY (wordXYN p x y n) = y := by
  have hp := p.isLt
  have hx := x.isLt
  have hy := y.isLt
  have hn := n.isLt
  apply BitVec.eq_of_toNat_eq
  rw [fieldY_toNat, wordXYN_toNat]
  omega

@[simp] theorem fieldN_wordXYN (p x y n : Nibble) : fieldN (wordXYN p x y n) = n := by
  have hp := p.isLt
  have hx := x.isLt
  have hy := y.isLt
  have hn := n.isLt
  apply BitVec.eq_of_toNat_eq
  rw [fieldN_toNat, wordXYN_toNat]
  omega

/-- A word is put together again from its fields. -/
theorem wordNNN_fields (op : Word) : wordNNN (fieldN1 op) (fieldNNN op) = op := by
  have h := op.isLt
  apply BitVec.eq_of_toNat_eq
  rw [wordNNN_toNat, fieldN1_toNat, fieldNNN_toNat]
  omega

/-- A word is put together again from its fields. -/
theorem wordXNN_fields (op : Word) : wordXNN (fieldN1 op) (fieldX op) (fieldNN op) = op := by
  have h := op.isLt
  apply BitVec.eq_of_toNat_eq
  rw [wordXNN_toNat, fieldN1_toNat, fieldX_toNat, fieldNN_toNat]
  omega

/-- A word is put together again from its fields. -/
theorem wordXYN_fields (op : Word) : wordXYN (fieldN1 op) (fieldX op) (fieldY op) (fieldN op) = op := by
  have h := op.isLt
  apply BitVec.eq_of_toNat_eq
  rw [wordXYN_toNat, fieldN1_toNat, fieldX_toNat, fieldY_toNat, fieldN_toNat]
  omega

theorem bigEndian_toNat (hi lo : Byte) : (bigEndian hi lo).toNat = hi.toNat * 256 + lo.toNat := by
  have h := lo.isLt
  rw [show bigEndian hi lo = (hi ++ lo : BitVec (8 + 8)) from rfl, BitVec.toNat_append, ← Nat.shiftLeft_add_eq_or_of_lt h,
    Nat.shiftLeft_eq]

/-- The two bytes a word is stored as give the word back (R41). -/
theorem bigEndian_bytes (op : Word) : bigEndian (op.extractLsb' 8 8) (op.extractLsb' 0 8) = op := by
  have h := op.isLt
  apply BitVec.eq_of_toNat_eq
  rw [bigEndian_toNat, BitVec.extractLsb'_toNat, BitVec.extractLsb'_toNat, Nat.shiftRight_eq_div_pow, Nat.shiftRight_eq_div_pow]
  omega

/-- Decoding bytes is decoding the word they make. -/
theorem decodeBytes_cons (hi lo : Byte) (rest : List Byte) (i : Instr) (h : decodeWord (bigEndian hi lo) = .ok i) :
    decodeBytes (hi :: lo :: rest) = .ok (i, rest) := by
  simp [decodeBytes, h]

end Sys2Proof
end

