-- ==== Sys2Proof/Laws/Memory.lean ====
section
/-! SUPPORT. The laws of memory: read after write, the canonical form kept by every write, and what the bounds checker and the
memory primitives answer (20_memory.md R38 to R40, R50; 00_scope.md R17). -/

namespace Sys2Proof.Machine

/-! ## Read after write -/

theorem Memory.find_filter_ne (m : Memory) (a k : Nat) (h : k ≠ a) :
    (m.filter (fun c => c.1 != a)).find? (fun c => c.1 == k) = m.find? (fun c => c.1 == k) := by
  induction m with
  | nil => rfl
  | cons c m ih =>
    by_cases hc : c.1 = a
    · have : ¬ c.1 = k := fun h' => h (h'.symm.trans hc)
      simp [hc, Ne.symm h, ih]
    · by_cases hk : c.1 = k <;> simp [hc, hk, ih, h]

theorem Memory.find_filter_self (m : Memory) (a : Nat) :
    (m.filter (fun c => c.1 != a)).find? (fun c => c.1 == a) = none := by
  simp [List.find?_eq_none]

theorem Memory.find_insert_ne (m : Memory) (a k : Nat) (b : Byte) (h : k ≠ a) :
    (Memory.insert a b m).find? (fun c => c.1 == k) = m.find? (fun c => c.1 == k) := by
  induction m with
  | nil => simp [Memory.insert, Ne.symm h]
  | cons c m ih =>
    unfold Memory.insert
    split
    · simp [List.find?_cons, Ne.symm h]
    · simp [List.find?_cons, ih]

theorem Memory.find_insert_self (m : Memory) (a : Nat) (b : Byte) (h : m.find? (fun c => c.1 == a) = none) :
    (Memory.insert a b m).find? (fun c => c.1 == a) = some (a, b) := by
  induction m with
  | nil => simp [Memory.insert]
  | cons c m ih =>
    have hc : ¬ c.1 = a := by
      intro e; simp [e] at h
    have hm : m.find? (fun c => c.1 == a) = none := by simpa [List.find?_cons, hc] using h
    unfold Memory.insert
    split
    · simp
    · simp [hc, ih hm]

/-- A read after a write: the written byte at its address, every other byte as before (R50). It holds of every memory. -/
theorem Memory.read_write (m : Memory) (a k : Nat) (b : Byte) :
    (m.write a b).read k = if k = a then b else m.read k := by
  unfold Memory.write Memory.read
  by_cases hk : k = a
  · subst hk
    by_cases hb : b = resetByte k
    · rw [if_pos hb, if_pos rfl, Memory.find_filter_self]; exact hb.symm
    · rw [if_neg hb, if_pos rfl, Memory.find_insert_self _ _ _ (Memory.find_filter_self m k)]
  · by_cases hb : b = resetByte a
    · simp [hb, hk, Memory.find_filter_ne m a k hk]
    · simp [hb, hk, Memory.find_insert_ne _ a k b hk, Memory.find_filter_ne m a k hk]

@[simp] theorem Memory.read_write_self (m : Memory) (a : Nat) (b : Byte) : (m.write a b).read a = b := by
  simp [Memory.read_write]

/-- A read after a write of several bytes: inside them the byte at its place, outside them as before. -/
theorem Memory.read_writeBytes (m : Memory) (a k : Nat) (bs : List Byte) :
    (m.writeBytes a bs).read k = if a ≤ k ∧ k < a + bs.length then bs.getD (k - a) 0 else m.read k := by
  induction bs generalizing m a with
  | nil => simp only [Memory.writeBytes, List.length_nil]; rw [if_neg (by omega)]
  | cons b bs ih =>
    simp only [Memory.writeBytes, ih, Memory.read_write, List.length_cons]
    by_cases h1 : a + 1 ≤ k ∧ k < a + 1 + bs.length
    · have e : k - a = (k - (a + 1)) + 1 := by omega
      rw [if_pos h1, if_pos (by omega), e, List.getD_cons_succ]
    · by_cases h2 : k = a
      · subst h2
        rw [if_neg h1, if_pos rfl, if_pos (by omega), Nat.sub_self, List.getD_cons_zero]
      · rw [if_neg h1, if_neg h2, if_neg (by omega)]

@[simp] theorem Memory.readBytes_length (m : Memory) (a n : Nat) : (m.readBytes a n).length = n := by
  simp [Memory.readBytes]

theorem Memory.readBytes_getD (m : Memory) (a n k : Nat) (h : k < n) : (m.readBytes a n).getD k 0 = m.read (a + k) := by
  simp [Memory.readBytes, List.getD_eq_getElem?_getD, h]

/-! ## The canonical form -/

theorem Memory.mem_insert (m : Memory) (a : Nat) (b : Byte) (c : Host.Cell) :
    c ∈ Memory.insert a b m ↔ c = (a, b) ∨ c ∈ m := by
  induction m with
  | nil => simp [Memory.insert]
  | cons d m ih =>
    unfold Memory.insert
    split
    · simp
    · simp only [List.mem_cons, ih]; tauto

theorem Memory.insert_pairwise (m : Memory) (a : Nat) (b : Byte) (hm : m.Pairwise (fun c d => c.1 < d.1))
    (ha : ∀ c ∈ m, c.1 ≠ a) : (Memory.insert a b m).Pairwise (fun c d => c.1 < d.1) := by
  induction m with
  | nil => simp [Memory.insert]
  | cons d m ih =>
    have hd := ha d (by simp)
    rw [List.pairwise_cons] at hm
    unfold Memory.insert
    split
    · next hlt =>
      refine List.pairwise_cons.2 ⟨?_, List.pairwise_cons.2 hm⟩
      intro e he
      rcases List.mem_cons.1 he with rfl | he
      · exact hlt
      · exact lt_trans hlt (hm.1 e he)
    · next hlt =>
      refine List.pairwise_cons.2 ⟨?_, ih hm.2 (fun c hc => ha c (by simp [hc]))⟩
      intro e he
      rcases (Memory.mem_insert m a b e).1 he with rfl | he
      · simp only; omega
      · exact hm.1 e he

/-- A write in bounds keeps the canonical form. -/
theorem Memory.write_wf (m : Memory) (a : Nat) (b : Byte) (hm : m.wf) (ha : a < Config.memSize) : (m.write a b).wf := by
  have hf : (m.filter (fun c => c.1 != a)).Pairwise (fun c d => c.1 < d.1) := hm.1.filter _
  unfold Memory.write
  split
  · exact ⟨hf, fun c hc => hm.2 c (List.mem_filter.1 hc).1⟩
  · next hb =>
    refine ⟨Memory.insert_pairwise _ _ _ hf (fun c hc => by simpa using (List.mem_filter.1 hc).2), ?_⟩
    intro c hc
    rcases (Memory.mem_insert _ a b c).1 hc with rfl | hc
    · exact ⟨ha, hb⟩
    · exact hm.2 c (List.mem_filter.1 hc).1

/-- A write of several bytes in bounds keeps the canonical form. -/
theorem Memory.writeBytes_wf (m : Memory) (a : Nat) (bs : List Byte) (hm : m.wf) (ha : a + bs.length ≤ Config.memSize) :
    (m.writeBytes a bs).wf := by
  induction bs generalizing m a with
  | nil => exact hm
  | cons b bs ih =>
    simp only [List.length_cons] at ha
    exact ih _ _ (Memory.write_wf m a b hm (by omega)) (by omega)

theorem State.reset_mem_wf : State.reset.mem.wf := by decide

/-- In a memory of rising addresses a listed cell is the one its address finds. -/
theorem Memory.find_of_mem (m : Memory) (hm : m.Pairwise (fun c d => c.1 < d.1)) (c : Host.Cell) (hc : c ∈ m) :
    m.find? (fun d => d.1 == c.1) = some c := by
  induction m with
  | nil => simp at hc
  | cons d m ih =>
    rw [List.pairwise_cons] at hm
    rcases List.mem_cons.1 hc with rfl | hc
    · simp
    · have hne : ¬ d.1 = c.1 := Nat.ne_of_lt (hm.1 c hc)
      simp [hne, ih hm.2 hc]

/-- Two canonical memories that read alike at every address are equal data. -/
theorem Memory.eq_of_read_eq (m n : Memory) (hm : m.wf) (hn : n.wf) (h : ∀ a, m.read a = n.read a) : m = n := by
  have key : ∀ (p q : Memory), p.wf → q.wf → (∀ a, p.read a = q.read a) → ∀ c ∈ p, c ∈ q := by
    intro p q hp hq hpq c hc
    have hread : p.read c.1 = c.2 := by
      simp [Memory.read, Memory.find_of_mem p hp.1 c hc]
    have hne := (hp.2 c hc).2
    rw [hpq] at hread
    unfold Memory.read at hread
    split at hread
    · next d hd =>
      have hd1 : d.1 = c.1 := by simpa using List.find?_some hd
      have : d = c := Prod.ext hd1 hread
      exact this ▸ List.mem_of_find?_eq_some hd
    · exact absurd hread.symm hne
  have hp1 : m.Pairwise (fun c d => c.1 < d.1) := hm.1
  have hp2 : n.Pairwise (fun c d => c.1 < d.1) := hn.1
  have nd1 : m.Nodup := hp1.imp (fun h e => by subst e; exact Nat.lt_irrefl _ h)
  have nd2 : n.Nodup := hp2.imp (fun h e => by subst e; exact Nat.lt_irrefl _ h)
  have hperm : m.Perm n := (List.perm_ext_iff_of_nodup nd1 nd2).2
    (fun c => ⟨key m n hm hn h c, key n m hn hm (fun a => (h a).symm) c⟩)
  exact hperm.eq_of_pairwise (fun a b _ _ h1 h2 => absurd h1 (Nat.lt_asymm h2)) hp1 hp2

/-! ## The bounds checker and the memory primitives -/

/-- What the checker finds: nothing when the access is empty or ends in bounds, else the first address when it is out, else 4096. -/
theorem firstOutOfBounds_eq (addr n : Nat) :
    firstOutOfBounds addr n = if n = 0 ∨ addr + n ≤ 4096 then none else some (max addr 4096) := by
  induction n generalizing addr with
  | zero => simp [firstOutOfBounds]
  | succ n ih =>
    unfold firstOutOfBounds
    simp only [ih, Config.memSize]
    by_cases h : addr < 4096
    · rw [if_pos h]
      by_cases h2 : addr + (n + 1) ≤ 4096
      · rw [if_pos (by omega), if_pos (by omega)]
      · by_cases h3 : n = 0
        · omega
        · rw [if_neg (by omega), if_neg (by omega)]; congr 1; omega
    · rw [if_neg h, if_neg (by omega)]; congr 1; omega

/-- BoundsCheck (R40): it passes an access that is empty or ends in bounds. -/
theorem boundsCheck_ok (addr n : Nat) (h : n = 0 ∨ addr + n ≤ 4096) : boundsCheck addr n = .ok () := by
  simp [boundsCheck, firstOutOfBounds_eq, h]

/-- BoundsCheck (R40): any other access raises, with its lowest address that is out. -/
theorem boundsCheck_error (addr n : Nat) (h : ¬ (n = 0 ∨ addr + n ≤ 4096)) :
    boundsCheck addr n = .error (.outOfBounds (max addr 4096)) := by
  unfold boundsCheck
  rw [firstOutOfBounds_eq, if_neg h]

/-- Everything MemRead can do (R17). -/
theorem State.memRead_eq (s : State) (addr n : Nat) :
    s.memRead addr n = if n = 0 ∨ addr + n ≤ 4096 then .ok (s.mem.readBytes addr n)
      else .error (.outOfBounds (max addr 4096)) := by
  by_cases h : n = 0 ∨ addr + n ≤ 4096
  · simp [State.memRead, boundsCheck_ok _ _ h, h]
  · rw [State.memRead, boundsCheck_error _ _ h, if_neg h]

/-- Everything MemWrite can do (R17). -/
theorem State.memWrite_eq (s : State) (addr : Nat) (bs : List Byte) :
    s.memWrite addr bs = if bs.length = 0 ∨ addr + bs.length ≤ 4096 then .ok (s.setMem (s.mem.writeBytes addr bs))
      else .error (.outOfBounds (max addr 4096)) := by
  by_cases h : bs.length = 0 ∨ addr + bs.length ≤ 4096
  · simp only [State.memWrite, boundsCheck_ok _ _ h, if_pos h]
  · rw [State.memWrite, boundsCheck_error _ _ h, if_neg h]

/-- Everything the fetch can do (R57). -/
theorem State.fetch_eq (s : State) :
    s.fetch = if s.pc.toNat + 2 ≤ 4096
      then .ok (bigEndian (s.readByte s.pc.toNat) (s.readByte (s.pc.toNat + 1)))
      else .error (.outOfBounds (max s.pc.toNat 4096)) := by
  by_cases h : s.pc.toNat + 2 ≤ 4096
  · simp only [State.fetch, boundsCheck_ok _ _ (Or.inr h), if_pos h]
  · rw [State.fetch, boundsCheck_error _ _ (by omega), if_neg h]

end Sys2Proof.Machine
end

