-- ==== Sys2Proof/Laws/State.lean ====
section
/-! SUPPORT. One lemma per field per update of State, and the laws of the register file: later proofs cite these and unfold no update. -/

namespace Sys2Proof.Machine

/-! ## Every update, every field -/

@[simp] theorem State.setIdx_v (s : State) (a : Word) : (s.setIdx a).v = s.v := rfl
@[simp] theorem State.setIdx_idx (s : State) (a : Word) : (s.setIdx a).idx = a := rfl
@[simp] theorem State.setIdx_pc (s : State) (a : Word) : (s.setIdx a).pc = s.pc := rfl
@[simp] theorem State.setIdx_stack (s : State) (a : Word) : (s.setIdx a).stack = s.stack := rfl
@[simp] theorem State.setIdx_dt (s : State) (a : Word) : (s.setIdx a).dt = s.dt := rfl
@[simp] theorem State.setIdx_st (s : State) (a : Word) : (s.setIdx a).st = s.st := rfl
@[simp] theorem State.setIdx_blk (s : State) (a : Word) : (s.setIdx a).blk = s.blk := rfl
@[simp] theorem State.setIdx_shiftUsesVy (s : State) (a : Word) : (s.setIdx a).shiftUsesVy = s.shiftUsesVy := rfl
@[simp] theorem State.setIdx_mem (s : State) (a : Word) : (s.setIdx a).mem = s.mem := rfl
@[simp] theorem State.setIdx_ports (s : State) (a : Word) : (s.setIdx a).ports = s.ports := rfl
@[simp] theorem State.setIdx_getV (s : State) (a : Word) (x : Nibble) : (s.setIdx a).getV x = s.getV x := rfl
@[simp] theorem State.setIdx_readByte (s : State) (a : Word) (k : Nat) : (s.setIdx a).readByte k = s.readByte k := rfl

@[simp] theorem State.setPc_v (s : State) (a : Word) : (s.setPc a).v = s.v := rfl
@[simp] theorem State.setPc_idx (s : State) (a : Word) : (s.setPc a).idx = s.idx := rfl
@[simp] theorem State.setPc_pc (s : State) (a : Word) : (s.setPc a).pc = a := rfl
@[simp] theorem State.setPc_stack (s : State) (a : Word) : (s.setPc a).stack = s.stack := rfl
@[simp] theorem State.setPc_dt (s : State) (a : Word) : (s.setPc a).dt = s.dt := rfl
@[simp] theorem State.setPc_st (s : State) (a : Word) : (s.setPc a).st = s.st := rfl
@[simp] theorem State.setPc_blk (s : State) (a : Word) : (s.setPc a).blk = s.blk := rfl
@[simp] theorem State.setPc_shiftUsesVy (s : State) (a : Word) : (s.setPc a).shiftUsesVy = s.shiftUsesVy := rfl
@[simp] theorem State.setPc_mem (s : State) (a : Word) : (s.setPc a).mem = s.mem := rfl
@[simp] theorem State.setPc_ports (s : State) (a : Word) : (s.setPc a).ports = s.ports := rfl
@[simp] theorem State.setPc_getV (s : State) (a : Word) (x : Nibble) : (s.setPc a).getV x = s.getV x := rfl
@[simp] theorem State.setPc_readByte (s : State) (a : Word) (k : Nat) : (s.setPc a).readByte k = s.readByte k := rfl

@[simp] theorem State.setStack_v (s : State) (a : List Word) : (s.setStack a).v = s.v := rfl
@[simp] theorem State.setStack_idx (s : State) (a : List Word) : (s.setStack a).idx = s.idx := rfl
@[simp] theorem State.setStack_pc (s : State) (a : List Word) : (s.setStack a).pc = s.pc := rfl
@[simp] theorem State.setStack_stack (s : State) (a : List Word) : (s.setStack a).stack = a := rfl
@[simp] theorem State.setStack_dt (s : State) (a : List Word) : (s.setStack a).dt = s.dt := rfl
@[simp] theorem State.setStack_st (s : State) (a : List Word) : (s.setStack a).st = s.st := rfl
@[simp] theorem State.setStack_blk (s : State) (a : List Word) : (s.setStack a).blk = s.blk := rfl
@[simp] theorem State.setStack_shiftUsesVy (s : State) (a : List Word) : (s.setStack a).shiftUsesVy = s.shiftUsesVy := rfl
@[simp] theorem State.setStack_mem (s : State) (a : List Word) : (s.setStack a).mem = s.mem := rfl
@[simp] theorem State.setStack_ports (s : State) (a : List Word) : (s.setStack a).ports = s.ports := rfl
@[simp] theorem State.setStack_getV (s : State) (a : List Word) (x : Nibble) : (s.setStack a).getV x = s.getV x := rfl
@[simp] theorem State.setStack_readByte (s : State) (a : List Word) (k : Nat) : (s.setStack a).readByte k = s.readByte k := rfl

@[simp] theorem State.setDt_v (s : State) (a : Byte) : (s.setDt a).v = s.v := rfl
@[simp] theorem State.setDt_idx (s : State) (a : Byte) : (s.setDt a).idx = s.idx := rfl
@[simp] theorem State.setDt_pc (s : State) (a : Byte) : (s.setDt a).pc = s.pc := rfl
@[simp] theorem State.setDt_stack (s : State) (a : Byte) : (s.setDt a).stack = s.stack := rfl
@[simp] theorem State.setDt_dt (s : State) (a : Byte) : (s.setDt a).dt = a := rfl
@[simp] theorem State.setDt_st (s : State) (a : Byte) : (s.setDt a).st = s.st := rfl
@[simp] theorem State.setDt_blk (s : State) (a : Byte) : (s.setDt a).blk = s.blk := rfl
@[simp] theorem State.setDt_shiftUsesVy (s : State) (a : Byte) : (s.setDt a).shiftUsesVy = s.shiftUsesVy := rfl
@[simp] theorem State.setDt_mem (s : State) (a : Byte) : (s.setDt a).mem = s.mem := rfl
@[simp] theorem State.setDt_ports (s : State) (a : Byte) : (s.setDt a).ports = s.ports := rfl
@[simp] theorem State.setDt_getV (s : State) (a : Byte) (x : Nibble) : (s.setDt a).getV x = s.getV x := rfl
@[simp] theorem State.setDt_readByte (s : State) (a : Byte) (k : Nat) : (s.setDt a).readByte k = s.readByte k := rfl

@[simp] theorem State.setSt_v (s : State) (a : Byte) : (s.setSt a).v = s.v := rfl
@[simp] theorem State.setSt_idx (s : State) (a : Byte) : (s.setSt a).idx = s.idx := rfl
@[simp] theorem State.setSt_pc (s : State) (a : Byte) : (s.setSt a).pc = s.pc := rfl
@[simp] theorem State.setSt_stack (s : State) (a : Byte) : (s.setSt a).stack = s.stack := rfl
@[simp] theorem State.setSt_dt (s : State) (a : Byte) : (s.setSt a).dt = s.dt := rfl
@[simp] theorem State.setSt_st (s : State) (a : Byte) : (s.setSt a).st = a := rfl
@[simp] theorem State.setSt_blk (s : State) (a : Byte) : (s.setSt a).blk = s.blk := rfl
@[simp] theorem State.setSt_shiftUsesVy (s : State) (a : Byte) : (s.setSt a).shiftUsesVy = s.shiftUsesVy := rfl
@[simp] theorem State.setSt_mem (s : State) (a : Byte) : (s.setSt a).mem = s.mem := rfl
@[simp] theorem State.setSt_ports (s : State) (a : Byte) : (s.setSt a).ports = s.ports := rfl
@[simp] theorem State.setSt_getV (s : State) (a : Byte) (x : Nibble) : (s.setSt a).getV x = s.getV x := rfl
@[simp] theorem State.setSt_readByte (s : State) (a : Byte) (k : Nat) : (s.setSt a).readByte k = s.readByte k := rfl

@[simp] theorem State.setBlk_v (s : State) (a : Blk) : (s.setBlk a).v = s.v := rfl
@[simp] theorem State.setBlk_idx (s : State) (a : Blk) : (s.setBlk a).idx = s.idx := rfl
@[simp] theorem State.setBlk_pc (s : State) (a : Blk) : (s.setBlk a).pc = s.pc := rfl
@[simp] theorem State.setBlk_stack (s : State) (a : Blk) : (s.setBlk a).stack = s.stack := rfl
@[simp] theorem State.setBlk_dt (s : State) (a : Blk) : (s.setBlk a).dt = s.dt := rfl
@[simp] theorem State.setBlk_st (s : State) (a : Blk) : (s.setBlk a).st = s.st := rfl
@[simp] theorem State.setBlk_blk (s : State) (a : Blk) : (s.setBlk a).blk = a := rfl
@[simp] theorem State.setBlk_shiftUsesVy (s : State) (a : Blk) : (s.setBlk a).shiftUsesVy = s.shiftUsesVy := rfl
@[simp] theorem State.setBlk_mem (s : State) (a : Blk) : (s.setBlk a).mem = s.mem := rfl
@[simp] theorem State.setBlk_ports (s : State) (a : Blk) : (s.setBlk a).ports = s.ports := rfl
@[simp] theorem State.setBlk_getV (s : State) (a : Blk) (x : Nibble) : (s.setBlk a).getV x = s.getV x := rfl
@[simp] theorem State.setBlk_readByte (s : State) (a : Blk) (k : Nat) : (s.setBlk a).readByte k = s.readByte k := rfl

@[simp] theorem State.setMem_v (s : State) (a : Memory) : (s.setMem a).v = s.v := rfl
@[simp] theorem State.setMem_idx (s : State) (a : Memory) : (s.setMem a).idx = s.idx := rfl
@[simp] theorem State.setMem_pc (s : State) (a : Memory) : (s.setMem a).pc = s.pc := rfl
@[simp] theorem State.setMem_stack (s : State) (a : Memory) : (s.setMem a).stack = s.stack := rfl
@[simp] theorem State.setMem_dt (s : State) (a : Memory) : (s.setMem a).dt = s.dt := rfl
@[simp] theorem State.setMem_st (s : State) (a : Memory) : (s.setMem a).st = s.st := rfl
@[simp] theorem State.setMem_blk (s : State) (a : Memory) : (s.setMem a).blk = s.blk := rfl
@[simp] theorem State.setMem_shiftUsesVy (s : State) (a : Memory) : (s.setMem a).shiftUsesVy = s.shiftUsesVy := rfl
@[simp] theorem State.setMem_mem (s : State) (a : Memory) : (s.setMem a).mem = a := rfl
@[simp] theorem State.setMem_ports (s : State) (a : Memory) : (s.setMem a).ports = s.ports := rfl
@[simp] theorem State.setMem_getV (s : State) (a : Memory) (x : Nibble) : (s.setMem a).getV x = s.getV x := rfl
@[simp] theorem State.setMem_readByte (s : State) (m : Memory) (k : Nat) : (s.setMem m).readByte k = m.read k := rfl

@[simp] theorem State.setPorts_v (s : State) (a : Ports) : (s.setPorts a).v = s.v := rfl
@[simp] theorem State.setPorts_idx (s : State) (a : Ports) : (s.setPorts a).idx = s.idx := rfl
@[simp] theorem State.setPorts_pc (s : State) (a : Ports) : (s.setPorts a).pc = s.pc := rfl
@[simp] theorem State.setPorts_stack (s : State) (a : Ports) : (s.setPorts a).stack = s.stack := rfl
@[simp] theorem State.setPorts_dt (s : State) (a : Ports) : (s.setPorts a).dt = s.dt := rfl
@[simp] theorem State.setPorts_st (s : State) (a : Ports) : (s.setPorts a).st = s.st := rfl
@[simp] theorem State.setPorts_blk (s : State) (a : Ports) : (s.setPorts a).blk = s.blk := rfl
@[simp] theorem State.setPorts_shiftUsesVy (s : State) (a : Ports) : (s.setPorts a).shiftUsesVy = s.shiftUsesVy := rfl
@[simp] theorem State.setPorts_mem (s : State) (a : Ports) : (s.setPorts a).mem = s.mem := rfl
@[simp] theorem State.setPorts_ports (s : State) (a : Ports) : (s.setPorts a).ports = a := rfl
@[simp] theorem State.setPorts_getV (s : State) (a : Ports) (x : Nibble) : (s.setPorts a).getV x = s.getV x := rfl
@[simp] theorem State.setPorts_readByte (s : State) (a : Ports) (k : Nat) : (s.setPorts a).readByte k = s.readByte k := rfl

@[simp] theorem State.setV_idx (s : State) (x : Nibble) (b : Byte) : (s.setV x b).idx = s.idx := rfl
@[simp] theorem State.setV_pc (s : State) (x : Nibble) (b : Byte) : (s.setV x b).pc = s.pc := rfl
@[simp] theorem State.setV_stack (s : State) (x : Nibble) (b : Byte) : (s.setV x b).stack = s.stack := rfl
@[simp] theorem State.setV_dt (s : State) (x : Nibble) (b : Byte) : (s.setV x b).dt = s.dt := rfl
@[simp] theorem State.setV_st (s : State) (x : Nibble) (b : Byte) : (s.setV x b).st = s.st := rfl
@[simp] theorem State.setV_blk (s : State) (x : Nibble) (b : Byte) : (s.setV x b).blk = s.blk := rfl
@[simp] theorem State.setV_shiftUsesVy (s : State) (x : Nibble) (b : Byte) : (s.setV x b).shiftUsesVy = s.shiftUsesVy := rfl
@[simp] theorem State.setV_mem (s : State) (x : Nibble) (b : Byte) : (s.setV x b).mem = s.mem := rfl
@[simp] theorem State.setV_ports (s : State) (x : Nibble) (b : Byte) : (s.setV x b).ports = s.ports := rfl
@[simp] theorem State.setV_readByte (s : State) (x : Nibble) (b : Byte) (k : Nat) : (s.setV x b).readByte k = s.readByte k := rfl

/-- Reading a register after a write (R16). -/
theorem State.getV_setV (s : State) (x y : Nibble) (b : Byte) :
    (s.setV x b).getV y = if x = y then b else s.getV y := by
  simp only [State.getV, State.setV, Vector.getElem_set, BitVec.toNat_inj]

@[simp] theorem State.getV_setV_self (s : State) (x : Nibble) (b : Byte) : (s.setV x b).getV x = b := by
  simp [State.getV_setV]

@[simp] theorem State.getV_setV_ne (s : State) (x y : Nibble) (b : Byte) (h : x ≠ y) :
    (s.setV x b).getV y = s.getV y := by
  simp [State.getV_setV, h]

/-- Two states whose registers all read alike have the same register file. -/
theorem State.v_ext {s t : State} (h : ∀ x, s.getV x = t.getV x) : s.v = t.v := by
  apply Vector.ext
  intro k hk
  have := h (BitVec.ofNat 4 k)
  simpa [State.getV, Nat.mod_eq_of_lt hk] using this

/-! ## The program counter, the flag write, the block load -/

@[simp] theorem State.advance_v (s : State) : s.advance.v = s.v := rfl
@[simp] theorem State.advance_idx (s : State) : s.advance.idx = s.idx := rfl
@[simp] theorem State.advance_stack (s : State) : s.advance.stack = s.stack := rfl
@[simp] theorem State.advance_dt (s : State) : s.advance.dt = s.dt := rfl
@[simp] theorem State.advance_st (s : State) : s.advance.st = s.st := rfl
@[simp] theorem State.advance_blk (s : State) : s.advance.blk = s.blk := rfl
@[simp] theorem State.advance_shiftUsesVy (s : State) : s.advance.shiftUsesVy = s.shiftUsesVy := rfl
@[simp] theorem State.advance_mem (s : State) : s.advance.mem = s.mem := rfl
@[simp] theorem State.advance_ports (s : State) : s.advance.ports = s.ports := rfl
@[simp] theorem State.advance_pc (s : State) : s.advance.pc = s.pc + 2 := rfl
@[simp] theorem State.advance_getV (s : State) (x : Nibble) : s.advance.getV x = s.getV x := rfl
@[simp] theorem State.advance_readByte (s : State) (k : Nat) : s.advance.readByte k = s.readByte k := rfl

@[simp] theorem State.skipIf_v (s : State) (c : Bool) : (s.skipIf c).v = s.v := rfl
@[simp] theorem State.skipIf_idx (s : State) (c : Bool) : (s.skipIf c).idx = s.idx := rfl
@[simp] theorem State.skipIf_stack (s : State) (c : Bool) : (s.skipIf c).stack = s.stack := rfl
@[simp] theorem State.skipIf_dt (s : State) (c : Bool) : (s.skipIf c).dt = s.dt := rfl
@[simp] theorem State.skipIf_st (s : State) (c : Bool) : (s.skipIf c).st = s.st := rfl
@[simp] theorem State.skipIf_blk (s : State) (c : Bool) : (s.skipIf c).blk = s.blk := rfl
@[simp] theorem State.skipIf_shiftUsesVy (s : State) (c : Bool) : (s.skipIf c).shiftUsesVy = s.shiftUsesVy := rfl
@[simp] theorem State.skipIf_mem (s : State) (c : Bool) : (s.skipIf c).mem = s.mem := rfl
@[simp] theorem State.skipIf_ports (s : State) (c : Bool) : (s.skipIf c).ports = s.ports := rfl
@[simp] theorem State.skipIf_pc (s : State) (c : Bool) : (s.skipIf c).pc = if c then s.pc + 4 else s.pc + 2 := rfl
@[simp] theorem State.skipIf_getV (s : State) (c : Bool) (x : Nibble) : (s.skipIf c).getV x = s.getV x := rfl
@[simp] theorem State.skipIf_readByte (s : State) (c : Bool) (k : Nat) : (s.skipIf c).readByte k = s.readByte k := rfl

@[simp] theorem State.setResultAndFlag_idx (s : State) (x : Nibble) (r : Byte) (c : Bool) : (s.setResultAndFlag x r c).idx = s.idx := rfl
@[simp] theorem State.setResultAndFlag_pc (s : State) (x : Nibble) (r : Byte) (c : Bool) : (s.setResultAndFlag x r c).pc = s.pc := rfl
@[simp] theorem State.setResultAndFlag_stack (s : State) (x : Nibble) (r : Byte) (c : Bool) : (s.setResultAndFlag x r c).stack = s.stack := rfl
@[simp] theorem State.setResultAndFlag_dt (s : State) (x : Nibble) (r : Byte) (c : Bool) : (s.setResultAndFlag x r c).dt = s.dt := rfl
@[simp] theorem State.setResultAndFlag_st (s : State) (x : Nibble) (r : Byte) (c : Bool) : (s.setResultAndFlag x r c).st = s.st := rfl
@[simp] theorem State.setResultAndFlag_blk (s : State) (x : Nibble) (r : Byte) (c : Bool) : (s.setResultAndFlag x r c).blk = s.blk := rfl
@[simp] theorem State.setResultAndFlag_shiftUsesVy (s : State) (x : Nibble) (r : Byte) (c : Bool) : (s.setResultAndFlag x r c).shiftUsesVy = s.shiftUsesVy := rfl
@[simp] theorem State.setResultAndFlag_mem (s : State) (x : Nibble) (r : Byte) (c : Bool) : (s.setResultAndFlag x r c).mem = s.mem := rfl
@[simp] theorem State.setResultAndFlag_ports (s : State) (x : Nibble) (r : Byte) (c : Bool) : (s.setResultAndFlag x r c).ports = s.ports := rfl
@[simp] theorem State.setResultAndFlag_readByte (s : State) (x : Nibble) (r : Byte) (c : Bool) (k : Nat) :
    (s.setResultAndFlag x r c).readByte k = s.readByte k := rfl

/-- The flag is written last, so it wins in `VF` (R83). -/
theorem State.setResultAndFlag_getV (s : State) (x y : Nibble) (r : Byte) (c : Bool) :
    (s.setResultAndFlag x r c).getV y = if regF = y then flagByte c else if x = y then r else s.getV y := by
  simp [State.setResultAndFlag, State.getV_setV]

@[simp] theorem State.setVs_idx (s : State) (k : Nat) (bs : List Byte) : (s.setVs k bs).idx = s.idx := by
  induction bs generalizing s k with
  | nil => rfl
  | cons b bs ih => simp [State.setVs, ih]

@[simp] theorem State.setVs_pc (s : State) (k : Nat) (bs : List Byte) : (s.setVs k bs).pc = s.pc := by
  induction bs generalizing s k with
  | nil => rfl
  | cons b bs ih => simp [State.setVs, ih]

@[simp] theorem State.setVs_stack (s : State) (k : Nat) (bs : List Byte) : (s.setVs k bs).stack = s.stack := by
  induction bs generalizing s k with
  | nil => rfl
  | cons b bs ih => simp [State.setVs, ih]

@[simp] theorem State.setVs_dt (s : State) (k : Nat) (bs : List Byte) : (s.setVs k bs).dt = s.dt := by
  induction bs generalizing s k with
  | nil => rfl
  | cons b bs ih => simp [State.setVs, ih]

@[simp] theorem State.setVs_st (s : State) (k : Nat) (bs : List Byte) : (s.setVs k bs).st = s.st := by
  induction bs generalizing s k with
  | nil => rfl
  | cons b bs ih => simp [State.setVs, ih]

@[simp] theorem State.setVs_blk (s : State) (k : Nat) (bs : List Byte) : (s.setVs k bs).blk = s.blk := by
  induction bs generalizing s k with
  | nil => rfl
  | cons b bs ih => simp [State.setVs, ih]

@[simp] theorem State.setVs_shiftUsesVy (s : State) (k : Nat) (bs : List Byte) : (s.setVs k bs).shiftUsesVy = s.shiftUsesVy := by
  induction bs generalizing s k with
  | nil => rfl
  | cons b bs ih => simp [State.setVs, ih]

@[simp] theorem State.setVs_mem (s : State) (k : Nat) (bs : List Byte) : (s.setVs k bs).mem = s.mem := by
  induction bs generalizing s k with
  | nil => rfl
  | cons b bs ih => simp [State.setVs, ih]

@[simp] theorem State.setVs_ports (s : State) (k : Nat) (bs : List Byte) : (s.setVs k bs).ports = s.ports := by
  induction bs generalizing s k with
  | nil => rfl
  | cons b bs ih => simp [State.setVs, ih]

@[simp] theorem State.setVs_readByte (s : State) (k : Nat) (bs : List Byte) (a : Nat) :
    (s.setVs k bs).readByte a = s.readByte a := by
  simp [State.readByte]

/-- After a block load from register `k` on, register `y` holds the byte at its place in the block, if it is in the block. -/
theorem State.setVs_getV (s : State) (k : Nat) (bs : List Byte) (y : Nibble) (h : k + bs.length ≤ 16) :
    (s.setVs k bs).getV y = if k ≤ y.toNat ∧ y.toNat < k + bs.length then bs.getD (y.toNat - k) 0 else s.getV y := by
  induction bs generalizing s k with
  | nil => simp only [State.setVs, List.length_nil]; rw [if_neg (by omega)]
  | cons b bs ih =>
    have hy := y.isLt
    simp only [List.length_cons] at h ⊢
    rw [State.setVs, ih _ _ (by omega), State.getV_setV]
    have hk : BitVec.ofNat 4 k = y ↔ k = y.toNat := by
      rw [← BitVec.toNat_inj, BitVec.toNat_ofNat, Nat.mod_eq_of_lt (by omega)]
    simp only [hk]
    by_cases h1 : k + 1 ≤ y.toNat ∧ y.toNat < k + 1 + bs.length
    · have e : y.toNat - k = (y.toNat - (k + 1)) + 1 := by omega
      rw [if_pos h1, if_pos (by omega), e, List.getD_cons_succ]
    · by_cases h2 : k = y.toNat
      · rw [if_neg h1, if_pos h2, if_pos (by omega), ← h2, Nat.sub_self, List.getD_cons_zero]
      · rw [if_neg h1, if_neg h2, if_neg (by omega)]

/-! ## Host calls -/

@[simp] theorem State.afterClear_v (s : State) : s.afterClear.v = s.v := rfl
@[simp] theorem State.afterClear_idx (s : State) : s.afterClear.idx = s.idx := rfl
@[simp] theorem State.afterClear_pc (s : State) : s.afterClear.pc = s.pc := rfl
@[simp] theorem State.afterClear_stack (s : State) : s.afterClear.stack = s.stack := rfl
@[simp] theorem State.afterClear_dt (s : State) : s.afterClear.dt = s.dt := rfl
@[simp] theorem State.afterClear_st (s : State) : s.afterClear.st = s.st := rfl
@[simp] theorem State.afterClear_blk (s : State) : s.afterClear.blk = s.blk := rfl
@[simp] theorem State.afterClear_shiftUsesVy (s : State) : s.afterClear.shiftUsesVy = s.shiftUsesVy := rfl
@[simp] theorem State.afterClear_mem (s : State) : s.afterClear.mem = s.mem := rfl
@[simp] theorem State.afterClear_getV (s : State) (r : Nibble) : s.afterClear.getV r = s.getV r := rfl
@[simp] theorem State.afterClear_readByte (s : State) (k : Nat) : s.afterClear.readByte k = s.readByte k := rfl

@[simp] theorem State.afterDraw_v (s : State) (x y : Nat) (rows : List Byte) : (s.afterDraw x y rows).v = s.v := rfl
@[simp] theorem State.afterDraw_idx (s : State) (x y : Nat) (rows : List Byte) : (s.afterDraw x y rows).idx = s.idx := rfl
@[simp] theorem State.afterDraw_pc (s : State) (x y : Nat) (rows : List Byte) : (s.afterDraw x y rows).pc = s.pc := rfl
@[simp] theorem State.afterDraw_stack (s : State) (x y : Nat) (rows : List Byte) : (s.afterDraw x y rows).stack = s.stack := rfl
@[simp] theorem State.afterDraw_dt (s : State) (x y : Nat) (rows : List Byte) : (s.afterDraw x y rows).dt = s.dt := rfl
@[simp] theorem State.afterDraw_st (s : State) (x y : Nat) (rows : List Byte) : (s.afterDraw x y rows).st = s.st := rfl
@[simp] theorem State.afterDraw_blk (s : State) (x y : Nat) (rows : List Byte) : (s.afterDraw x y rows).blk = s.blk := rfl
@[simp] theorem State.afterDraw_shiftUsesVy (s : State) (x y : Nat) (rows : List Byte) : (s.afterDraw x y rows).shiftUsesVy = s.shiftUsesVy := rfl
@[simp] theorem State.afterDraw_mem (s : State) (x y : Nat) (rows : List Byte) : (s.afterDraw x y rows).mem = s.mem := rfl
@[simp] theorem State.afterDraw_getV (s : State) (x y : Nat) (rows : List Byte) (r : Nibble) : (s.afterDraw x y rows).getV r = s.getV r := rfl
@[simp] theorem State.afterDraw_readByte (s : State) (x y : Nat) (rows : List Byte) (k : Nat) : (s.afterDraw x y rows).readByte k = s.readByte k := rfl

@[simp] theorem State.afterPressed_v (s : State) (key : Byte) : (s.afterPressed key).v = s.v := rfl
@[simp] theorem State.afterPressed_idx (s : State) (key : Byte) : (s.afterPressed key).idx = s.idx := rfl
@[simp] theorem State.afterPressed_pc (s : State) (key : Byte) : (s.afterPressed key).pc = s.pc := rfl
@[simp] theorem State.afterPressed_stack (s : State) (key : Byte) : (s.afterPressed key).stack = s.stack := rfl
@[simp] theorem State.afterPressed_dt (s : State) (key : Byte) : (s.afterPressed key).dt = s.dt := rfl
@[simp] theorem State.afterPressed_st (s : State) (key : Byte) : (s.afterPressed key).st = s.st := rfl
@[simp] theorem State.afterPressed_blk (s : State) (key : Byte) : (s.afterPressed key).blk = s.blk := rfl
@[simp] theorem State.afterPressed_shiftUsesVy (s : State) (key : Byte) : (s.afterPressed key).shiftUsesVy = s.shiftUsesVy := rfl
@[simp] theorem State.afterPressed_mem (s : State) (key : Byte) : (s.afterPressed key).mem = s.mem := rfl
@[simp] theorem State.afterPressed_getV (s : State) (key : Byte) (r : Nibble) : (s.afterPressed key).getV r = s.getV r := rfl
@[simp] theorem State.afterPressed_readByte (s : State) (key : Byte) (k : Nat) : (s.afterPressed key).readByte k = s.readByte k := rfl

@[simp] theorem State.afterRng_v (s : State) : s.afterRng.v = s.v := rfl
@[simp] theorem State.afterRng_idx (s : State) : s.afterRng.idx = s.idx := rfl
@[simp] theorem State.afterRng_pc (s : State) : s.afterRng.pc = s.pc := rfl
@[simp] theorem State.afterRng_stack (s : State) : s.afterRng.stack = s.stack := rfl
@[simp] theorem State.afterRng_dt (s : State) : s.afterRng.dt = s.dt := rfl
@[simp] theorem State.afterRng_st (s : State) : s.afterRng.st = s.st := rfl
@[simp] theorem State.afterRng_blk (s : State) : s.afterRng.blk = s.blk := rfl
@[simp] theorem State.afterRng_shiftUsesVy (s : State) : s.afterRng.shiftUsesVy = s.shiftUsesVy := rfl
@[simp] theorem State.afterRng_mem (s : State) : s.afterRng.mem = s.mem := rfl
@[simp] theorem State.afterRng_getV (s : State) (r : Nibble) : s.afterRng.getV r = s.getV r := rfl
@[simp] theorem State.afterRng_readByte (s : State) (k : Nat) : s.afterRng.readByte k = s.readByte k := rfl

end Sys2Proof.Machine
end

