-- ==== Sys2Proof/Laws/Operands.lean ====
section
/-! SUPPORT. What the operand forms, the flag computations and the display's row arithmetic give, as integers and single bits. -/

namespace Sys2Proof.Machine

/-! ## Flags -/

theorem flagByte_toNat (c : Bool) : (flagByte c).toNat = if c = true then 1 else 0 := by
  cases c <;> rfl

theorem carryOut_iff (a b : Byte) : carryOut a b = true ↔ a.toNat + b.toNat > 255 := by
  simp [carryOut]

theorem noBorrow_iff (a b : Byte) : noBorrow a b = true ↔ a.toNat ≥ b.toNat := by
  simp [noBorrow]

theorem shiftedOutRight_toNat (src : Byte) : (flagByte (shiftedOutRight src)).toNat = src.toNat % 2 := by
  rw [flagByte_toNat, shiftedOutRight, BitVec.getLsbD, Nat.testBit_zero]
  rcases Nat.mod_two_eq_zero_or_one src.toNat with h | h <;> simp [h]

theorem shiftedOutLeft_toNat (src : Byte) : (flagByte (shiftedOutLeft src)).toNat = src.toNat / 128 := by
  have h := src.isLt
  have e : Nat.testBit src.toNat 7 = decide (src.toNat / 128 % 2 = 1) := by
    rw [Nat.testBit_eq_decide_div_mod_eq]
  rw [flagByte_toNat, shiftedOutLeft, BitVec.getLsbD, e]
  by_cases c : src.toNat / 128 % 2 = 1
  · rw [if_pos (decide_eq_true c)]; omega
  · rw [if_neg (by simpa using c)]; omega

/-! ## Operands -/

theorem target12_toNat (nnn : Addr12) : (target12 nnn).toNat = nnn.toNat := by
  have := nnn.isLt
  rw [target12, BitVec.toNat_setWidth]; omega

theorem State.targetV0_toNat (s : State) (nnn : Addr12) : (s.targetV0 nnn).toNat = nnn.toNat + (s.getV 0).toNat := by
  have := nnn.isLt
  have := (s.getV 0).isLt
  rw [State.targetV0, BitVec.toNat_add, BitVec.toNat_setWidth, BitVec.toNat_setWidth]; omega

theorem State.idxPlus_toNat (s : State) (x : Nibble) : (s.idxPlus x).toNat = (s.idx.toNat + (s.getV x).toNat) % 65536 := by
  have := (s.getV x).isLt
  rw [State.idxPlus, BitVec.toNat_add, BitVec.toNat_setWidth]; omega

theorem State.idxAfterBlock_toNat (s : State) (x : Nibble) : (s.idxAfterBlock x).toNat = (s.idx.toNat + x.toNat + 1) % 65536 := by
  have := x.isLt
  rw [State.idxAfterBlock, blockLength, BitVec.toNat_add, BitVec.toNat_ofNat]; omega

theorem State.glyphAddr_toNat (s : State) (x : Nibble) : (s.glyphAddr x).toNat = (s.getV x).toNat * 5 := by
  have := (s.getV x).isLt
  rw [State.glyphAddr, BitVec.toNat_ofNat, Config.glyphBytes]; omega

@[simp] theorem State.regBlock_length (s : State) (x : Nibble) : (s.regBlock x).length = x.toNat + 1 := by
  simp [State.regBlock]

theorem State.regBlock_getD (s : State) (x : Nibble) (k : Nat) (h : k ≤ x.toNat) :
    (s.regBlock x).getD k 0 = s.getV (BitVec.ofNat 4 k) := by
  have : k < x.toNat + 1 := by omega
  simp [State.regBlock, List.getD_eq_getElem?_getD, this]

@[simp] theorem bcdDigits_length (b : Byte) : (bcdDigits b).length = 3 := rfl

/-! ## The display's rows -/

theorem Grid.draw_getD (g : Grid) (edge : DisplayEdge) (x y : Nat) (rows : List Byte) (py : Nat) (h : py < 32) :
    (g.draw edge x y rows).toList.getD py 0 = g.toList.getD py 0 ^^^ spriteRowBits edge x y rows py := by
  simp [Grid.draw, List.getD_eq_getElem?_getD, h]

theorem spriteStart_getMsbD (b : Byte) (j : Nat) :
    (b.setWidth 64 <<< 56).getMsbD j = (decide (j < 8) && b.getMsbD j) := by
  rw [BitVec.getMsbD_shiftLeft, BitVec.getMsbD_setWidth]
  by_cases h : j < 8
  · have e : j + 56 + 8 - 64 = j := by omega
    simp [h, e]
  · simp [h, BitVec.getMsbD_of_ge b j (by omega)]

/-- The bits of a row byte on its display row, column by column; bit 7 of the byte is its leftmost (G5). -/
theorem spriteBits_getMsbD (edge : DisplayEdge) (x : Nat) (b : Byte) (px : Nat) (hx : x < 64) (hp : px < 64) :
    (spriteBits edge x b).getMsbD px =
      match edge with
      | .clip => decide (x ≤ px) && (decide (px - x < 8) && b.getMsbD (px - x))
      | .wrap => decide ((px + 64 - x) % 64 < 8) && b.getMsbD ((px + 64 - x) % 64) := by
  cases edge with
  | clip =>
    simp only [spriteBits, BitVec.getMsbD_ushiftRight, spriteStart_getMsbD]
    by_cases h : x ≤ px
    · simp [h, hp, show ¬ px < x by omega]
    · simp [h, show px < x by omega]
  | wrap =>
    simp only [spriteBits, BitVec.getMsbD_rotateRight, spriteStart_getMsbD]
    by_cases h : px < x % 64
    · have e : (px + 64 - x) % 64 = 64 + px - x % 64 := by omega
      have e2 : (64 + px - x % 64) % 64 = 64 + px - x % 64 := by omega
      simp [h, hp, e, e2]
    · have e : (px + 64 - x) % 64 = px - x % 64 := by omega
      simp [h, hp, e]

end Sys2Proof.Machine
end

