-- ==== Sys2Proof/Laws/PerInstr.lean ====
section
/-! SUPPORT. Per instruction: its word has the literal nibbles of its own row of the opcode map (30_encoding.md R62, R63). -/

namespace Sys2Proof.Laws

/-- The row an instruction is the constructor of: its mnemonic in the opcode table. -/
def mnemonicOf : Instr → String
  | .cls => "CLS"
  | .ret => "RET"
  | .jp _ => "JP_NNN"
  | .call _ => "CALL_NNN"
  | .seImm _ _ => "SE_Vx_NN"
  | .sneImm _ _ => "SNE_Vx_NN"
  | .seReg _ _ => "SE_Vx_Vy"
  | .ldImm _ _ => "LD_Vx_NN"
  | .addImm _ _ => "ADD_Vx_NN"
  | .ldReg _ _ => "LD_Vx_Vy"
  | .orReg _ _ => "OR_Vx_Vy"
  | .andReg _ _ => "AND_Vx_Vy"
  | .xorReg _ _ => "XOR_Vx_Vy"
  | .addReg _ _ => "ADD_Vx_Vy"
  | .sub _ _ => "SUB_Vx_Vy"
  | .shr _ _ => "SHR_Vx__Vy"
  | .subn _ _ => "SUBN_Vx_Vy"
  | .shl _ _ => "SHL_Vx__Vy"
  | .sneReg _ _ => "SNE_Vx_Vy"
  | .ldI _ => "LD_I_NNN"
  | .jpV0 _ => "JP_V0_NNN"
  | .rnd _ _ => "RND_Vx_NN"
  | .drw _ _ _ => "DRW_Vx_Vy_N"
  | .skp _ => "SKP_Vx"
  | .sknp _ => "SKNP_Vx"
  | .ldVxDt _ => "LD_Vx_DT"
  | .ldVxK _ => "LD_Vx_K"
  | .ldDtVx _ => "LD_DT_Vx"
  | .ldStVx _ => "LD_ST_Vx"
  | .addI _ => "ADD_I_Vx"
  | .ldF _ => "LD_F_Vx"
  | .ldB _ => "LD_B_Vx"
  | .storeRegs _ => "LD__I__Vx"
  | .loadRegs _ => "LD_Vx__I"

theorem nibble_and_ones (p : Nibble) : p &&& 0xF#4 = p := BitVec.and_allOnes

theorem byte_and_ones (b : Byte) : b &&& 0xFF#8 = b := BitVec.and_allOnes

theorem wordNNN_mask (p : Nibble) (nnn : Addr12) : wordNNN p nnn &&& 0xF000 = wordNNN p 0 := by
  rw [show (0xF000 : Word) = ((0xF#4 ++ 0x000#12 : BitVec (4 + 12))) from rfl]
  unfold wordNNN
  rw [BitVec.and_append]
  simp [nibble_and_ones]

theorem wordXNN_mask (p x : Nibble) (nn : Byte) : wordXNN p x nn &&& 0xF000 = wordXNN p 0 0 := by
  rw [show (0xF000 : Word) = (((0xF#4 ++ 0x0#4 : BitVec (4 + 4)) ++ 0x00#8 : BitVec (4 + 4 + 8))) from rfl]
  unfold wordXNN
  rw [BitVec.and_append, BitVec.and_append]
  simp [nibble_and_ones]

theorem wordXNN_mask_low (p x : Nibble) (nn : Byte) : wordXNN p x nn &&& 0xF0FF = wordXNN p 0 nn := by
  rw [show (0xF0FF : Word) = (((0xF#4 ++ 0x0#4 : BitVec (4 + 4)) ++ 0xFF#8 : BitVec (4 + 4 + 8))) from rfl]
  unfold wordXNN
  rw [BitVec.and_append, BitVec.and_append]
  simp [nibble_and_ones, byte_and_ones]

theorem wordXYN_mask (p x y n : Nibble) : wordXYN p x y n &&& 0xF000 = wordXYN p 0 0 0 := by
  rw [show (0xF000 : Word) = (((0xF#4 ++ 0x0#4 : BitVec (4 + 4)) ++ (0x0#4 ++ 0x0#4 : BitVec (4 + 4)) : BitVec (4 + 4 + (4 + 4)))) from rfl]
  unfold wordXYN
  rw [BitVec.and_append, BitVec.and_append, BitVec.and_append]
  simp [nibble_and_ones]

theorem wordXYN_mask_low (p x y n : Nibble) : wordXYN p x y n &&& 0xF00F = wordXYN p 0 0 n := by
  rw [show (0xF00F : Word) = (((0xF#4 ++ 0x0#4 : BitVec (4 + 4)) ++ (0x0#4 ++ 0xF#4 : BitVec (4 + 4)) : BitVec (4 + 4 + (4 + 4)))) from rfl]
  unfold wordXYN
  rw [BitVec.and_append, BitVec.and_append, BitVec.and_append]
  simp [nibble_and_ones]

/-- The instruction's word matches the row of its mnemonic. -/
def EncodesItsRow.Statement (i : Instr) : Prop :=
  ∃ r ∈ opcodeMap, r.mnemonic = mnemonicOf i ∧ encode i &&& r.mask = r.pattern

theorem EncodesItsRow.cls : EncodesItsRow.Statement .cls :=
  ⟨⟨"CLS", 0x00E0, 0xFFFF⟩, by decide, rfl, rfl⟩

theorem EncodesItsRow.ret : EncodesItsRow.Statement .ret :=
  ⟨⟨"RET", 0x00EE, 0xFFFF⟩, by decide, rfl, rfl⟩

theorem EncodesItsRow.jp (nnn : Addr12) : EncodesItsRow.Statement (.jp nnn) :=
  ⟨⟨"JP_NNN", 0x1000, 0xF000⟩, by decide, rfl, (wordNNN_mask _ _).trans (by decide)⟩

theorem EncodesItsRow.call (nnn : Addr12) : EncodesItsRow.Statement (.call nnn) :=
  ⟨⟨"CALL_NNN", 0x2000, 0xF000⟩, by decide, rfl, (wordNNN_mask _ _).trans (by decide)⟩

theorem EncodesItsRow.seImm (x : Nibble) (nn : Byte) : EncodesItsRow.Statement (.seImm x nn) :=
  ⟨⟨"SE_Vx_NN", 0x3000, 0xF000⟩, by decide, rfl, (wordXNN_mask _ _ _).trans (by decide)⟩

theorem EncodesItsRow.sneImm (x : Nibble) (nn : Byte) : EncodesItsRow.Statement (.sneImm x nn) :=
  ⟨⟨"SNE_Vx_NN", 0x4000, 0xF000⟩, by decide, rfl, (wordXNN_mask _ _ _).trans (by decide)⟩

theorem EncodesItsRow.seReg (x : Nibble) (y : Nibble) : EncodesItsRow.Statement (.seReg x y) :=
  ⟨⟨"SE_Vx_Vy", 0x5000, 0xF00F⟩, by decide, rfl, (wordXYN_mask_low _ _ _ _).trans (by decide)⟩

theorem EncodesItsRow.ldImm (x : Nibble) (nn : Byte) : EncodesItsRow.Statement (.ldImm x nn) :=
  ⟨⟨"LD_Vx_NN", 0x6000, 0xF000⟩, by decide, rfl, (wordXNN_mask _ _ _).trans (by decide)⟩

theorem EncodesItsRow.addImm (x : Nibble) (nn : Byte) : EncodesItsRow.Statement (.addImm x nn) :=
  ⟨⟨"ADD_Vx_NN", 0x7000, 0xF000⟩, by decide, rfl, (wordXNN_mask _ _ _).trans (by decide)⟩

theorem EncodesItsRow.ldReg (x : Nibble) (y : Nibble) : EncodesItsRow.Statement (.ldReg x y) :=
  ⟨⟨"LD_Vx_Vy", 0x8000, 0xF00F⟩, by decide, rfl, (wordXYN_mask_low _ _ _ _).trans (by decide)⟩

theorem EncodesItsRow.orReg (x : Nibble) (y : Nibble) : EncodesItsRow.Statement (.orReg x y) :=
  ⟨⟨"OR_Vx_Vy", 0x8001, 0xF00F⟩, by decide, rfl, (wordXYN_mask_low _ _ _ _).trans (by decide)⟩

theorem EncodesItsRow.andReg (x : Nibble) (y : Nibble) : EncodesItsRow.Statement (.andReg x y) :=
  ⟨⟨"AND_Vx_Vy", 0x8002, 0xF00F⟩, by decide, rfl, (wordXYN_mask_low _ _ _ _).trans (by decide)⟩

theorem EncodesItsRow.xorReg (x : Nibble) (y : Nibble) : EncodesItsRow.Statement (.xorReg x y) :=
  ⟨⟨"XOR_Vx_Vy", 0x8003, 0xF00F⟩, by decide, rfl, (wordXYN_mask_low _ _ _ _).trans (by decide)⟩

theorem EncodesItsRow.addReg (x : Nibble) (y : Nibble) : EncodesItsRow.Statement (.addReg x y) :=
  ⟨⟨"ADD_Vx_Vy", 0x8004, 0xF00F⟩, by decide, rfl, (wordXYN_mask_low _ _ _ _).trans (by decide)⟩

theorem EncodesItsRow.sub (x : Nibble) (y : Nibble) : EncodesItsRow.Statement (.sub x y) :=
  ⟨⟨"SUB_Vx_Vy", 0x8005, 0xF00F⟩, by decide, rfl, (wordXYN_mask_low _ _ _ _).trans (by decide)⟩

theorem EncodesItsRow.shr (x : Nibble) (y : Nibble) : EncodesItsRow.Statement (.shr x y) :=
  ⟨⟨"SHR_Vx__Vy", 0x8006, 0xF00F⟩, by decide, rfl, (wordXYN_mask_low _ _ _ _).trans (by decide)⟩

theorem EncodesItsRow.subn (x : Nibble) (y : Nibble) : EncodesItsRow.Statement (.subn x y) :=
  ⟨⟨"SUBN_Vx_Vy", 0x8007, 0xF00F⟩, by decide, rfl, (wordXYN_mask_low _ _ _ _).trans (by decide)⟩

theorem EncodesItsRow.shl (x : Nibble) (y : Nibble) : EncodesItsRow.Statement (.shl x y) :=
  ⟨⟨"SHL_Vx__Vy", 0x800E, 0xF00F⟩, by decide, rfl, (wordXYN_mask_low _ _ _ _).trans (by decide)⟩

theorem EncodesItsRow.sneReg (x : Nibble) (y : Nibble) : EncodesItsRow.Statement (.sneReg x y) :=
  ⟨⟨"SNE_Vx_Vy", 0x9000, 0xF00F⟩, by decide, rfl, (wordXYN_mask_low _ _ _ _).trans (by decide)⟩

theorem EncodesItsRow.ldI (nnn : Addr12) : EncodesItsRow.Statement (.ldI nnn) :=
  ⟨⟨"LD_I_NNN", 0xA000, 0xF000⟩, by decide, rfl, (wordNNN_mask _ _).trans (by decide)⟩

theorem EncodesItsRow.jpV0 (nnn : Addr12) : EncodesItsRow.Statement (.jpV0 nnn) :=
  ⟨⟨"JP_V0_NNN", 0xB000, 0xF000⟩, by decide, rfl, (wordNNN_mask _ _).trans (by decide)⟩

theorem EncodesItsRow.rnd (x : Nibble) (nn : Byte) : EncodesItsRow.Statement (.rnd x nn) :=
  ⟨⟨"RND_Vx_NN", 0xC000, 0xF000⟩, by decide, rfl, (wordXNN_mask _ _ _).trans (by decide)⟩

theorem EncodesItsRow.drw (x : Nibble) (y : Nibble) (n : Nibble) : EncodesItsRow.Statement (.drw x y n) :=
  ⟨⟨"DRW_Vx_Vy_N", 0xD000, 0xF000⟩, by decide, rfl, (wordXYN_mask _ _ _ _).trans (by decide)⟩

theorem EncodesItsRow.skp (x : Nibble) : EncodesItsRow.Statement (.skp x) :=
  ⟨⟨"SKP_Vx", 0xE09E, 0xF0FF⟩, by decide, rfl, (wordXNN_mask_low _ _ _).trans (by decide)⟩

theorem EncodesItsRow.sknp (x : Nibble) : EncodesItsRow.Statement (.sknp x) :=
  ⟨⟨"SKNP_Vx", 0xE0A1, 0xF0FF⟩, by decide, rfl, (wordXNN_mask_low _ _ _).trans (by decide)⟩

theorem EncodesItsRow.ldVxDt (x : Nibble) : EncodesItsRow.Statement (.ldVxDt x) :=
  ⟨⟨"LD_Vx_DT", 0xF007, 0xF0FF⟩, by decide, rfl, (wordXNN_mask_low _ _ _).trans (by decide)⟩

theorem EncodesItsRow.ldVxK (x : Nibble) : EncodesItsRow.Statement (.ldVxK x) :=
  ⟨⟨"LD_Vx_K", 0xF00A, 0xF0FF⟩, by decide, rfl, (wordXNN_mask_low _ _ _).trans (by decide)⟩

theorem EncodesItsRow.ldDtVx (x : Nibble) : EncodesItsRow.Statement (.ldDtVx x) :=
  ⟨⟨"LD_DT_Vx", 0xF015, 0xF0FF⟩, by decide, rfl, (wordXNN_mask_low _ _ _).trans (by decide)⟩

theorem EncodesItsRow.ldStVx (x : Nibble) : EncodesItsRow.Statement (.ldStVx x) :=
  ⟨⟨"LD_ST_Vx", 0xF018, 0xF0FF⟩, by decide, rfl, (wordXNN_mask_low _ _ _).trans (by decide)⟩

theorem EncodesItsRow.addI (x : Nibble) : EncodesItsRow.Statement (.addI x) :=
  ⟨⟨"ADD_I_Vx", 0xF01E, 0xF0FF⟩, by decide, rfl, (wordXNN_mask_low _ _ _).trans (by decide)⟩

theorem EncodesItsRow.ldF (x : Nibble) : EncodesItsRow.Statement (.ldF x) :=
  ⟨⟨"LD_F_Vx", 0xF029, 0xF0FF⟩, by decide, rfl, (wordXNN_mask_low _ _ _).trans (by decide)⟩

theorem EncodesItsRow.ldB (x : Nibble) : EncodesItsRow.Statement (.ldB x) :=
  ⟨⟨"LD_B_Vx", 0xF033, 0xF0FF⟩, by decide, rfl, (wordXNN_mask_low _ _ _).trans (by decide)⟩

theorem EncodesItsRow.storeRegs (x : Nibble) : EncodesItsRow.Statement (.storeRegs x) :=
  ⟨⟨"LD__I__Vx", 0xF055, 0xF0FF⟩, by decide, rfl, (wordXNN_mask_low _ _ _).trans (by decide)⟩

theorem EncodesItsRow.loadRegs (x : Nibble) : EncodesItsRow.Statement (.loadRegs x) :=
  ⟨⟨"LD_Vx__I", 0xF065, 0xF0FF⟩, by decide, rfl, (wordXNN_mask_low _ _ _).trans (by decide)⟩

end Sys2Proof.Laws
end

