-- ==== Sys2Proof/Laws/Step.lean ====
section
/-! SUPPORT. What a step can do, said once: its inversion for each outcome, and the placing of a word where it is fetched. -/

namespace Sys2Proof.Machine

/-- A step that answers a next state waited and changed nothing, or fetched and decoded an instruction whose meaning answers it. -/
theorem step_next_cases {s t : State} (h : step s = .next t) :
    (∃ r, s.blk = .awaitingKey r ∧ t = s) ∨
    (s.blk = .running ∧ ∃ op i, s.fetch = .ok op ∧ decodeWord op = .ok i ∧ exec i s = .next t) := by
  unfold step at h
  split at h
  · next r hb => exact .inl ⟨r, hb, by injection h with h; exact h.symm⟩
  · next hb =>
    split at h
    · cases h
    · next op hf =>
      split at h
      · cases h
      · next i hd => exact .inr ⟨hb, op, i, hf, hd, h⟩

/-- A step that raises did not wait, and the error is the fetch's, the decoder's or the instruction's (R124). -/
theorem step_fault_cases {s : State} {e : Fault} (h : step s = .fault e) :
    s.blk = .running ∧ (s.fetch = .error e ∨
      ∃ op, s.fetch = .ok op ∧ ((∃ d, decodeWord op = .error d ∧ e = .unimplementedOpcode op s.pc) ∨
        ∃ i, decodeWord op = .ok i ∧ exec i s = .fault e)) := by
  unfold step at h
  split at h
  · cases h
  · next hb =>
    refine ⟨hb, ?_⟩
    split at h
    · next e' hf => injection h with h; exact .inl (h ▸ hf)
    · next op hf =>
      split at h
      · next d hd => injection h with h; exact .inr ⟨op, hf, .inl ⟨d, hd, h.symm⟩⟩
      · next i hd => exact .inr ⟨op, hf, .inr ⟨i, hd, h⟩⟩

/-- A step that refuses refuses in an instruction's arm. -/
theorem step_refused_cases {s : State} {r : Refusal} (h : step s = .refused r) : ∃ i, exec i s = .refused r := by
  unfold step at h
  split at h
  · cases h
  · split at h
    · cases h
    · split at h
      · cases h
      · next i _ => exact ⟨i, h⟩

theorem State.fetchPlace_lt (s : State) : s.fetchPlace.toNat + 1 < 4096 := by
  unfold State.fetchPlace
  split
  · next h => exact h
  · decide

/-- The next step after `withFetchWord` fetches exactly the placed word. -/
theorem State.withFetchWord_fetch (s : State) (nbits w : Nat) :
    (s.withFetchWord nbits w).blk = .running ∧ (s.withFetchWord nbits w).fetch = .ok (tableWord nbits w) := by
  have hp := s.fetchPlace_lt
  have hpc : (s.withFetchWord nbits w).pc = s.fetchPlace := rfl
  refine ⟨rfl, ?_⟩
  rw [State.fetch_eq, hpc, if_pos (by omega)]
  simp only [State.readByte, State.withFetchWord, State.setMem, Memory.read_writeBytes, tableBytes, List.length_cons,
    List.length_nil]
  rw [if_pos (by omega), if_pos (by omega), Nat.sub_self, Nat.add_sub_cancel_left]
  exact congrArg Except.ok (bigEndian_bytes _)

end Sys2Proof.Machine
end

