-- ==== Sys2Proof/Machine/Assembler.lean ====
section
/-! DEFINITION. The assembler text of an instruction (30_encoding.md R66). It has no effect on any rule, and `step` does not use it. -/

namespace Sys2Proof.Machine

/-- One hexadecimal digit. -/
def hexDigit (d : Nat) : Char := "0123456789ABCDEF".toList.getD d '0'

/-- The low `digits` hexadecimal digits of a number, most significant first. -/
def hexDigits (n : Nat) : Nat → List Char
  | 0 => []
  | digits + 1 => hexDigit (n / 16 ^ digits % 16) :: hexDigits n digits

/-- An immediate, with as many digits as its field has nibbles. -/
def asmImm (n digits : Nat) : String := "0x" ++ String.ofList (hexDigits n digits)

/-- A register name, `V0` to `VF`. -/
def asmReg (x : Nibble) : String := "V" ++ String.ofList (hexDigits x.toNat 1)

/-- The text of an instruction: the mnemonic, a space, the operands separated by commas. The optional operand of a shift is always
written. -/
def asm : Instr → String
  | .cls => "CLS"
  | .ret => "RET"
  | .jp nnn => "JP " ++ asmImm nnn.toNat 3
  | .call nnn => "CALL " ++ asmImm nnn.toNat 3
  | .seImm x nn => "SE " ++ asmReg x ++ "," ++ asmImm nn.toNat 2
  | .sneImm x nn => "SNE " ++ asmReg x ++ "," ++ asmImm nn.toNat 2
  | .seReg x y => "SE " ++ asmReg x ++ "," ++ asmReg y
  | .ldImm x nn => "LD " ++ asmReg x ++ "," ++ asmImm nn.toNat 2
  | .addImm x nn => "ADD " ++ asmReg x ++ "," ++ asmImm nn.toNat 2
  | .ldReg x y => "LD " ++ asmReg x ++ "," ++ asmReg y
  | .orReg x y => "OR " ++ asmReg x ++ "," ++ asmReg y
  | .andReg x y => "AND " ++ asmReg x ++ "," ++ asmReg y
  | .xorReg x y => "XOR " ++ asmReg x ++ "," ++ asmReg y
  | .addReg x y => "ADD " ++ asmReg x ++ "," ++ asmReg y
  | .sub x y => "SUB " ++ asmReg x ++ "," ++ asmReg y
  | .shr x y => "SHR " ++ asmReg x ++ "," ++ asmReg y
  | .subn x y => "SUBN " ++ asmReg x ++ "," ++ asmReg y
  | .shl x y => "SHL " ++ asmReg x ++ "," ++ asmReg y
  | .sneReg x y => "SNE " ++ asmReg x ++ "," ++ asmReg y
  | .ldI nnn => "LD I," ++ asmImm nnn.toNat 3
  | .jpV0 nnn => "JP V0," ++ asmImm nnn.toNat 3
  | .rnd x nn => "RND " ++ asmReg x ++ "," ++ asmImm nn.toNat 2
  | .drw x y n => "DRW " ++ asmReg x ++ "," ++ asmReg y ++ "," ++ asmImm n.toNat 1
  | .skp x => "SKP " ++ asmReg x
  | .sknp x => "SKNP " ++ asmReg x
  | .ldVxDt x => "LD " ++ asmReg x ++ ",DT"
  | .ldVxK x => "LD " ++ asmReg x ++ ",K"
  | .ldDtVx x => "LD DT," ++ asmReg x
  | .ldStVx x => "LD ST," ++ asmReg x
  | .addI x => "ADD I," ++ asmReg x
  | .ldF x => "LD F," ++ asmReg x
  | .ldB x => "LD B," ++ asmReg x
  | .storeRegs x => "LD [I]," ++ asmReg x
  | .loadRegs x => "LD " ++ asmReg x ++ ",[I]"

end Sys2Proof.Machine
end

