-- ==== Sys2Proof/Tests/Slice0.lean ====
section
/-! SUPPORT. Tests and witnesses. The words and the expected values are those of spec/95_test_vectors.md (named T-... or S...) or
worked out by hand from the rule named; each step test is one step. A `witness_` theorem shows a state and operands that meet the
hypotheses of the obligation it names, at the boundary values of each clause. -/

namespace Sys2Proof.Tests

open Sys2Proof Sys2Proof.Machine

/-! ## Helpers -/

/-- The base state of 95_test_vectors.md with some registers set. -/
def withV (l : List (Nibble × Byte)) : State := l.foldl (fun s p => s.setV p.1 p.2) (State.construct false)

/-- The same, of a core constructed with SHIFT_USES_VY true. -/
def withVy (l : List (Nibble × Byte)) : State := l.foldl (fun s p => s.setV p.1 p.2) (State.construct true)

/-- The base state with a pc. -/
def atPc (a : Word) : State := (State.construct false).setPc a

/-- The base state with as many return addresses 0x202 on the stack as said. -/
def deep (n : Nat) : State := (State.construct false).setStack (List.replicate n 0x202)

/-- The base state that waits for a key. -/
def waiting (r : Nibble) : State := (State.construct false).setBlk (.awaitingKey r)

/-- The state with a word where the next step fetches it. -/
def put (s : State) (w : Nat) : State := s.withFetchWord 16 w

/-- The step answers a next state with this property. -/
def goes (r : StepResult) (p : State → Bool) : Bool :=
  match r with
  | .next t => p t
  | _ => false

/-- The step raises this error. -/
def raises (r : StepResult) (e : Fault) : Bool :=
  match r with
  | .fault f => f == e
  | _ => false

theorem fault_of_raises {r : StepResult} {e : Fault} (h : raises r e = true) : r = .fault e := by
  unfold raises at h
  split at h
  · rw [beq_iff_eq] at h; rw [h]
  · cases h

/-- The invariant of a state whose memory lists nothing. -/
theorem inv_of (s : State) (hm : s.mem = []) (hl : s.stack.length ≤ 16) (hp : s.pc.toNat ≤ 0x10FE)
    (ha : ∀ a ∈ s.stack, a.toNat ≤ 0x1000) (hb : s.blk ≠ .running → s.pc.toNat ≤ 0xFFE) : s.Inv := by
  refine ⟨?_, hl, hp, ha, hb⟩
  rw [hm]
  exact ⟨List.Pairwise.nil, fun c hc => absurd hc List.not_mem_nil⟩

/-! ## WellFormed: words that match no row are refused by the table and by the decoder (R63, R64; T-DEC-1 to T-DEC-8) -/

theorem test_refused_machine_routine : wordWellFormed 0x0123 = false ∧ decodeWord 0x0123 = .error (.unimplementedOpcode 0x0123) := by
  decide

theorem test_refused_zero_word : wordWellFormed 0x0000 = false ∧ decodeWord 0x0000 = .error (.unimplementedOpcode 0x0000) := by
  decide

theorem test_refused_family0_low_byte : wordWellFormed 0x00E1 = false ∧ decodeWord 0x00E1 = .error (.unimplementedOpcode 0x00E1) := by
  decide

theorem test_refused_family5_literal : wordWellFormed 0x5121 = false ∧ decodeWord 0x5121 = .error (.unimplementedOpcode 0x5121) := by
  decide

theorem test_refused_family8_nibble : wordWellFormed 0x8128 = false ∧ decodeWord 0x8128 = .error (.unimplementedOpcode 0x8128) := by
  decide

theorem test_refused_family8_nibble_F : wordWellFormed 0x812F = false ∧ decodeWord 0x812F = .error (.unimplementedOpcode 0x812F) := by
  decide

theorem test_refused_family9_literal : wordWellFormed 0x912F = false ∧ decodeWord 0x912F = .error (.unimplementedOpcode 0x912F) := by
  decide

theorem test_refused_familyE_byte : wordWellFormed 0xE19F = false ∧ decodeWord 0xE19F = .error (.unimplementedOpcode 0xE19F) := by
  decide

theorem test_refused_familyF_byte : wordWellFormed 0xFFFF = false ∧ decodeWord 0xFFFF = .error (.unimplementedOpcode 0xFFFF) := by
  decide

theorem test_row_of_draw : (rowOf 0xD125).map (·.mnemonic) = some "DRW_Vx_Vy_N" := by decide

theorem test_truncated_bytes : decodeBytes [0x60] = .error .truncated := by decide

/-! ## Decoding: one word per constructor, its bits written from the encoding column of R62 -/

theorem test_decode_cls : decodeWord 0b0000000011100000 = .ok (.cls) ∧ wordWellFormed 0b0000000011100000 = true := by decide
theorem test_decode_ret : decodeWord 0b0000000011101110 = .ok (.ret) ∧ wordWellFormed 0b0000000011101110 = true := by decide
theorem test_decode_jp : decodeWord 0b0001001000110100 = .ok (.jp 0x234) ∧ wordWellFormed 0b0001001000110100 = true := by decide
theorem test_decode_call : decodeWord 0b0010001100000000 = .ok (.call 0x300) ∧ wordWellFormed 0b0010001100000000 = true := by decide
theorem test_decode_seImm : decodeWord 0b0011001101000010 = .ok (.seImm 0x3 0x42) ∧ wordWellFormed 0b0011001101000010 = true := by decide
theorem test_decode_sneImm : decodeWord 0b0100001101000010 = .ok (.sneImm 0x3 0x42) ∧ wordWellFormed 0b0100001101000010 = true := by decide
theorem test_decode_seReg : decodeWord 0b0101000100100000 = .ok (.seReg 0x1 0x2) ∧ wordWellFormed 0b0101000100100000 = true := by decide
theorem test_decode_ldImm : decodeWord 0b0110101001011100 = .ok (.ldImm 0xA 0x5C) ∧ wordWellFormed 0b0110101001011100 = true := by decide
theorem test_decode_addImm : decodeWord 0b0111001000100000 = .ok (.addImm 0x2 0x20) ∧ wordWellFormed 0b0111001000100000 = true := by decide
theorem test_decode_ldReg : decodeWord 0b1000000101000000 = .ok (.ldReg 0x1 0x4) ∧ wordWellFormed 0b1000000101000000 = true := by decide
theorem test_decode_orReg : decodeWord 0b1000001000010001 = .ok (.orReg 0x2 0x1) ∧ wordWellFormed 0b1000001000010001 = true := by decide
theorem test_decode_andReg : decodeWord 0b1000001100010010 = .ok (.andReg 0x3 0x1) ∧ wordWellFormed 0b1000001100010010 = true := by decide
theorem test_decode_xorReg : decodeWord 0b1000010001010011 = .ok (.xorReg 0x4 0x5) ∧ wordWellFormed 0b1000010001010011 = true := by decide
theorem test_decode_addReg : decodeWord 0b1000111100010100 = .ok (.addReg 0xF 0x1) ∧ wordWellFormed 0b1000111100010100 = true := by decide
theorem test_decode_sub : decodeWord 0b1000111100010101 = .ok (.sub 0xF 0x1) ∧ wordWellFormed 0b1000111100010101 = true := by decide
theorem test_decode_shr : decodeWord 0b1000000000010110 = .ok (.shr 0x0 0x1) ∧ wordWellFormed 0b1000000000010110 = true := by decide
theorem test_decode_subn : decodeWord 0b1000001000010111 = .ok (.subn 0x2 0x1) ∧ wordWellFormed 0b1000001000010111 = true := by decide
theorem test_decode_shl : decodeWord 0b1000111100001110 = .ok (.shl 0xF 0x0) ∧ wordWellFormed 0b1000111100001110 = true := by decide
theorem test_decode_sneReg : decodeWord 0b1001000100100000 = .ok (.sneReg 0x1 0x2) ∧ wordWellFormed 0b1001000100100000 = true := by decide
theorem test_decode_ldI : decodeWord 0b1010001011110000 = .ok (.ldI 0x2F0) ∧ wordWellFormed 0b1010001011110000 = true := by decide
theorem test_decode_jpV0 : decodeWord 0b1011111111111111 = .ok (.jpV0 0xFFF) ∧ wordWellFormed 0b1011111111111111 = true := by decide
theorem test_decode_rnd : decodeWord 0b1100001100001111 = .ok (.rnd 0x3 0x0F) ∧ wordWellFormed 0b1100001100001111 = true := by decide
theorem test_decode_drw : decodeWord 0b1101000100100101 = .ok (.drw 0x1 0x2 0x5) ∧ wordWellFormed 0b1101000100100101 = true := by decide
theorem test_decode_skp : decodeWord 0b1110010010011110 = .ok (.skp 0x4) ∧ wordWellFormed 0b1110010010011110 = true := by decide
theorem test_decode_sknp : decodeWord 0b1110010010100001 = .ok (.sknp 0x4) ∧ wordWellFormed 0b1110010010100001 = true := by decide
theorem test_decode_ldVxDt : decodeWord 0b1111001100000111 = .ok (.ldVxDt 0x3) ∧ wordWellFormed 0b1111001100000111 = true := by decide
theorem test_decode_ldVxK : decodeWord 0b1111010100001010 = .ok (.ldVxK 0x5) ∧ wordWellFormed 0b1111010100001010 = true := by decide
theorem test_decode_ldDtVx : decodeWord 0b1111000100010101 = .ok (.ldDtVx 0x1) ∧ wordWellFormed 0b1111000100010101 = true := by decide
theorem test_decode_ldStVx : decodeWord 0b1111001000011000 = .ok (.ldStVx 0x2) ∧ wordWellFormed 0b1111001000011000 = true := by decide
theorem test_decode_addI : decodeWord 0b1111010100011110 = .ok (.addI 0x5) ∧ wordWellFormed 0b1111010100011110 = true := by decide
theorem test_decode_ldF : decodeWord 0b1111001000101001 = .ok (.ldF 0x2) ∧ wordWellFormed 0b1111001000101001 = true := by decide
theorem test_decode_ldB : decodeWord 0b1111101000110011 = .ok (.ldB 0xA) ∧ wordWellFormed 0b1111101000110011 = true := by decide
theorem test_decode_storeRegs : decodeWord 0b1111001101010101 = .ok (.storeRegs 0x3) ∧ wordWellFormed 0b1111001101010101 = true := by decide
theorem test_decode_loadRegs : decodeWord 0b1111001001100101 = .ok (.loadRegs 0x2) ∧ wordWellFormed 0b1111001001100101 = true := by decide

theorem test_table_word : decodeTableWord 16 0x6A5C = some (.ldImm 0xA 0x5C) ∧ decodeTableWord 16 0x0123 = none := by decide

/-! ## One step each (95_test_vectors.md section 2) -/

/-- T-CTL-1 -/
theorem test_step_jp :
    goes (step (put (State.construct false) 0x1234)) (fun t => t.pc == 0x234) = true := by decide

/-- T-CTL-4 -/
theorem test_step_call_pushes_next :
    goes (step (put (State.construct false) 0x2300)) (fun t => t.stack == [0x202] && t.pc == 0x300) = true := by decide

/-- T-CTL-8 -/
theorem test_step_call_at_last_address :
    goes (step (put (atPc 0xFFE) 0x2300)) (fun t => t.stack == [0x1000] && t.pc == 0x300) = true := by decide

/-- T-CTL-4 -/
theorem test_step_ret :
    goes (step (put (deep 1) 0x00EE)) (fun t => t.stack == [] && t.pc == 0x202) = true := by decide

/-- T-CTL-6 -/
theorem test_step_ret_underflow :
    raises (step (put (State.construct false) 0x00EE)) (.stackUnderflow) = true := by decide

/-- T-CTL-9 -/
theorem test_step_seImm_skips :
    goes (step (put (withV [(3, 0x42)]) 0x3342)) (fun t => t.pc == 0x204) = true := by decide

/-- T-CTL-12 -/
theorem test_step_sneImm_skips_not :
    goes (step (put (withV [(3, 0x42)]) 0x4342)) (fun t => t.pc == 0x202) = true := by decide

/-- T-CTL-13 -/
theorem test_step_seReg_skips :
    goes (step (put (withV [(1, 7), (2, 7)]) 0x5120)) (fun t => t.pc == 0x204) = true := by decide

/-- T-CTL-15 -/
theorem test_step_sneReg_skips :
    goes (step (put (withV [(1, 7), (2, 8)]) 0x9120)) (fun t => t.pc == 0x204) = true := by decide

/-- T-CTL-19 -/
theorem test_step_jpV0_not_reduced :
    goes (step (put (withV [(0, 0xFF)]) 0xBFFF)) (fun t => t.pc == 0x10FE) = true := by decide

/-- T-ALU-1 -/
theorem test_step_ldImm :
    goes (step (put (State.construct false) 0x6A5C)) (fun t => t.getV 10 == 0x5C && t.pc == 0x202) = true := by decide

/-- T-DEC-9 -/
theorem test_step_ldImm_odd_pc :
    goes (step (put (atPc 0x201) 0x607F)) (fun t => t.getV 0 == 0x7F && t.pc == 0x203) = true := by decide

/-- T-ALU-3 -/
theorem test_step_addImm_no_flag :
    goes (step (put (withV [(0, 0xFF)]) 0x7001)) (fun t => t.getV 0 == 0 && t.getV 15 == 0) = true := by decide

/-- T-ALU-4 -/
theorem test_step_addImm_vf :
    goes (step (put (withV [(15, 0x10)]) 0x7F05)) (fun t => t.getV 15 == 0x15) = true := by decide

/-- T-ALU-5 -/
theorem test_step_ldReg :
    goes (step (put (withV [(4, 0x99)]) 0x8140)) (fun t => t.getV 1 == 0x99 && t.getV 4 == 0x99) = true := by decide

/-- T-ALU-22 -/
theorem test_step_or_keeps_vf :
    goes (step (put (withV [(0, 0x0F), (1, 0xF0), (15, 1)]) 0x8011)) (fun t => t.getV 0 == 0xFF && t.getV 15 == 1) = true := by decide

/-- T-ALU-23 -/
theorem test_step_and :
    goes (step (put (withV [(0, 0x3C), (1, 0x0F)]) 0x8012)) (fun t => t.getV 0 == 0x0C) = true := by decide

/-- T-ALU-24 -/
theorem test_step_xor_self :
    goes (step (put (withV [(0, 0x5A)]) 0x8003)) (fun t => t.getV 0 == 0x00) = true := by decide

/-- T-ALU-6, S1 -/
theorem test_step_addReg_carry :
    goes (step (put (withV [(0, 0xC8), (1, 0x64)]) 0x8014)) (fun t => t.getV 0 == 0x2C && t.getV 15 == 1) = true := by decide

/-- T-ALU-10 -/
theorem test_step_addReg_flag_last :
    goes (step (put (withV [(15, 0xFF), (1, 0x01)]) 0x8F14)) (fun t => t.getV 15 == 1) = true := by decide

/-- T-ALU-11, S2 -/
theorem test_step_sub_borrow :
    goes (step (put (withV [(0, 0x01), (1, 0x02)]) 0x8015)) (fun t => t.getV 0 == 0xFF && t.getV 15 == 0) = true := by decide

/-- T-ALU-13 -/
theorem test_step_sub_equal :
    goes (step (put (withV [(0, 0x07), (1, 0x07)]) 0x8015)) (fun t => t.getV 0 == 0x00 && t.getV 15 == 1) = true := by decide

/-- T-ALU-14 -/
theorem test_step_subn :
    goes (step (put (withV [(0, 0x02), (1, 0x05)]) 0x8017)) (fun t => t.getV 0 == 0x03 && t.getV 15 == 1) = true := by decide

/-- T-ALU-15 -/
theorem test_step_subn_borrow :
    goes (step (put (withV [(0, 0x05), (1, 0x02)]) 0x8017)) (fun t => t.getV 0 == 0xFD && t.getV 15 == 0) = true := by decide

/-- T-ALU-17, S4 -/
theorem test_step_shr_vx :
    goes (step (put (withV [(0, 0x03), (1, 0x80)]) 0x8016)) (fun t => t.getV 0 == 0x01 && t.getV 15 == 1 && t.getV 1 == 0x80) = true := by decide

/-- T-ALU-18 -/
theorem test_step_shr_vy :
    goes (step (put (withVy [(0, 0x03), (1, 0x80)]) 0x8016)) (fun t => t.getV 0 == 0x40 && t.getV 15 == 0 && t.getV 1 == 0x80) = true := by decide

/-- T-ALU-19 -/
theorem test_step_shl_vy :
    goes (step (put (withVy [(1, 0x81)]) 0x801E)) (fun t => t.getV 0 == 0x02 && t.getV 15 == 1 && t.getV 1 == 0x81) = true := by decide

/-- T-ALU-21 -/
theorem test_step_shl_vf :
    goes (step (put (withV [(15, 0x81)]) 0x8F0E)) (fun t => t.getV 15 == 1) = true := by decide

/-- T-ALU-25 -/
theorem test_step_rnd :
    goes (step (put ((State.construct false).setPorts { Ports.reset with rng := [0xA7] }) 0xC30F)) (fun t => t.getV 3 == 0x07 && t.ports.calls == [.rngByte] && t.ports.rng == []) = true := by decide

/-- T-MEM-1 -/
theorem test_step_ldI :
    goes (step (put (State.construct false) 0xA2F0)) (fun t => t.idx == 0x2F0) = true := by decide

/-- T-MEM-3 -/
theorem test_step_addI_wraps :
    goes (step (put ((withV [(0, 2)]).setIdx 0xFFFF) 0xF01E)) (fun t => t.idx == 1 && t.getV 15 == 0) = true := by decide

/-- T-MEM-4 -/
theorem test_step_ldF :
    goes (step (put (withV [(2, 0x0A)]) 0xF229)) (fun t => t.idx == 0x032) = true := by decide

/-- T-MEM-5, S5 -/
theorem test_step_ldB :
    goes (step (put ((withV [(0, 157)]).setIdx 0x300) 0xF033)) (fun t => t.mem.readBytes 0x300 3 == [1, 5, 7] && t.idx == 0x300) = true := by decide

/-- T-MEM-8 -/
theorem test_step_ldB_out_of_bounds :
    raises (step (put ((withV [(0, 255)]).setIdx 0xFFE) 0xF033)) (.outOfBounds 0x1000) = true := by decide

/-- T-MEM-10, S6 -/
theorem test_step_storeRegs :
    goes (step (put ((withV [(0, 0x11), (1, 0x22), (2, 0x33), (3, 0x44)]).setIdx 0x500) 0xF355)) (fun t => t.mem.readBytes 0x500 5 == [0x11, 0x22, 0x33, 0x44, 0] && t.idx == 0x504) = true := by decide

/-- T-MEM-12 -/
theorem test_step_storeRegs_out_of_bounds :
    raises (step (put ((State.construct false).setIdx 0xFF5) 0xFF55)) (.outOfBounds 0x1000) = true := by decide

/-- T-MEM-16 -/
theorem test_step_loadRegs_font :
    goes (step (put (State.construct false) 0xFF65)) (fun t => t.getV 0 == 0xF0 && t.getV 5 == 0x20 && t.getV 15 == 0xF0 && t.idx == 0x010) = true := by decide

/-- T-MEM-15 -/
theorem test_step_loadRegs_no_wrap :
    raises (step (put ((State.construct false).setIdx 0xFFFF) 0xF165)) (.outOfBounds 0xFFFF) = true := by decide

/-- T-DEV-1 -/
theorem test_step_cls :
    goes (step (put (State.construct false) 0x00E0)) (fun t => t.ports.calls == [.clear] && t.pc == 0x202) = true := by decide

/-- T-DEV-3 -/
theorem test_step_drw :
    goes (step (put ((withV [(0, 70), (1, 40)]).setPorts { Ports.reset with collisions := [true] }) 0xD015)) (fun t => t.ports.calls == [.draw 6 8 [0xF0, 0x90, 0x90, 0x90, 0xF0]] && t.getV 15 == 1 && t.pc == 0x202) = true := by decide

/-- T-DEV-4 -/
theorem test_step_drw_out_of_bounds :
    raises (step (put ((State.construct false).setIdx 0xFFC) 0xD015)) (.outOfBounds 0x1000) = true := by decide

/-- T-DEV-7 -/
theorem test_step_skp :
    goes (step (put ((withV [(4, 0x0B)]).setPorts { Ports.reset with keys := [true] }) 0xE49E)) (fun t => t.ports.calls == [.isPressed 0x0B] && t.pc == 0x204) = true := by decide

/-- T-DEV-8 -/
theorem test_step_sknp :
    goes (step (put ((withV [(4, 0x0B)]).setPorts { Ports.reset with keys := [true] }) 0xE4A1)) (fun t => t.pc == 0x202) = true := by decide

/-- T-DEV-9, S10 -/
theorem test_step_ldVxK :
    goes (step (put (atPc 0x230) 0xF50A)) (fun t => t.blk == .awaitingKey 5 && t.pc == 0x230) = true := by decide

/-- T-DEV-16 -/
theorem test_step_ldVxDt :
    goes (step (put ((State.construct false).setDt 0x3C) 0xF307)) (fun t => t.getV 3 == 0x3C && t.dt == 0x3C) = true := by decide

/-- T-DEV-15 -/
theorem test_step_ldDtVx :
    goes (step (put (withV [(1, 0x3C)]) 0xF115)) (fun t => t.dt == 0x3C) = true := by decide

/-- T-DEV-17 -/
theorem test_step_ldStVx :
    goes (step (put (withV [(2, 0x05)]) 0xF218)) (fun t => t.st == 5 && t.audioOut) = true := by decide

/-! ## The errors of fetch and decode, the waiting step, and the host's transactions -/

/-- T-DEC-1 -/
theorem test_step_unimplemented :
    raises (step (put (State.construct false) 0x0123)) (.unimplementedOpcode 0x0123 0x200) = true := by decide

/-- T-DEC-14 -/
theorem test_step_fetch_second_byte_out :
    raises (step ((atPc 0xFFF).setMem [(0xFFF, 0xFF)])) (.outOfBounds 0x1000) = true := by decide

/-- T-DEC-13 -/
theorem test_step_fetch_out :
    raises (step (atPc 0x10FE)) (.outOfBounds 0x10FE) = true := by decide

/-- T-DEC-10 -/
theorem test_step_last_fetch :
    goes (step (put (atPc 0xFFE) 0x6101)) (fun t => t.getV 1 == 1 && t.pc == 0x1000) = true := by decide

/-- T-DEV-14 -/
theorem test_step_waiting_out_of_bounds :
    goes (step ((waiting 0).setPc 0x1000)) (fun t => t == (waiting 0).setPc 0x1000) = true := by decide

/-- T-DEV-11 -/
theorem test_resume :
    (fun t : State => t.getV 5 == 0x0C && t.pc == 0x232 && t.blk == .running) (((waiting 5).setPc 0x230).resumeWithKey 0xC) = true := by decide

/-- T-DEV-12 -/
theorem test_resume_running :
    (State.construct false).resumeWithKey 3 = State.construct false := by decide

/-- T-HST-1 -/
theorem test_tick :
    (fun t : State => t.dt == 1 && t.st == 0) (((State.construct false).setDt 2).setSt 1).tickTimers = true := by decide

/-- T-HST-2 -/
theorem test_tick_zero :
    (State.construct false).tickTimers = State.construct false := by decide

/-- R143 -/
theorem test_load_rom :
    (fun r : State × Answer => r.2 == .accepted && r.1.mem.readBytes 0x1FF 4 == [0, 0x22, 0x34, 0]) ((State.construct false).transact (.loadRom [0x22, 0x34])) = true := by decide

/-- T-HST-6 -/
theorem test_load_rom_too_long :
    ((State.construct false).transact (.loadRom (List.replicate 3585 1))).2 = .rejected := by 
  have h : (State.construct false).loadRom (List.replicate 3585 1) = none := if_neg (by rw [List.length_replicate]; decide)
  simp only [State.transact, h]

/-- T-HST-8 -/
theorem test_soft_reset :
    (fun t : State => t.getV 3 == 0 && t.idx == 0 && t.pc == 0x200 && t.stack == [] && t.blk == .running && t.dt == 7 && t.st == 2 && t.mem == [(0, 0), (0x300, 0xAB)])
      (((((((((withV [(3, 9)]).setIdx 0x345).setPc 0x456).setStack [0x210]).setDt 7).setSt 2).setBlk (.awaitingKey 1)).setMem [(0, 0), (0x300, 0xAB)]).softReset) = true := by decide

/-- T-HST-4 -/
theorem test_construct_font :
    (State.construct true).shiftUsesVy = true ∧ (State.construct true).mem.readBytes 0 5 = [0xF0, 0x90, 0x90, 0x90, 0xF0] ∧
      (State.construct true).mem.readBytes 0x4B 6 = [0xF0, 0x80, 0xF0, 0x80, 0x80, 0] := by decide

/-- R117 -/
theorem test_result_codes :
    [resultCode (step (put (State.construct false) 0x00E0)), resultCode (step (atPc 0x1000)), resultCode (step (State.construct false)),
      resultCode (exec .ret (deep 0)), resultCode (exec (.call 0) (deep 16))] = [some 0, some 4, some 1, some 2, some 3] := by decide

/-- R146 -/
theorem test_boot :
    (State.boot true [0x12, 0x00]).map (fun s => (s.shiftUsesVy, s.mem.readBytes 0x200 2, s.pc)) = some (true, [0x12, 0x00], 0x200) := by decide

/-- R66; the listings of programs P2, P3, P5 -/
theorem test_assembler_text :
    [asm (.ldImm 0xA 0x9D), asm (.call 0x210), asm (.loadRegs 2), asm (.ldF 0), asm (.ldVxK 0), asm (.seImm 0xF 1)] =
      ["LD VA,0x9D", "CALL 0x210", "LD V2,[I]", "LD F,V0", "LD V0,K", "SE VF,0x01"] := by decide

/-- The canonical form (log 6) -/
theorem test_memory_write_of_reset_value_unlists :
    Memory.write (Memory.write [] 0x300 7) 0x300 0 = [] ∧ Memory.write (Memory.write [] 0 0) 0 0xF0 = [] := by decide

/-- R133, D18, G5 -/
theorem test_display_wrap_and_clip :
    ((Grid.blank.draw .wrap 60 31 [0xFF, 0x80]).pixel 3 31 = true ∧ (Grid.blank.draw .wrap 60 31 [0xFF, 0x80]).pixel 60 0 = true) ∧
      (Grid.blank.draw .clip 60 31 [0xFF, 0x80]).pixel 3 31 = false ∧ (Grid.blank.draw .clip 60 31 [0xFF, 0x80]).pixel 60 0 = false ∧
      (Grid.blank.draw .clip 60 31 [0xFF, 0x80]).pixel 63 31 = true := by decide

/-! ## Witnesses: states and operands that meet the hypotheses of the obligations -/

theorem witness_EncodeOfDecodeIsTheWord :
    decodeWord 0xD125 = .ok (.drw 1 2 5) ∧ encode (.drw 1 2 5) = 0xD125 := by
  decide

theorem witness_DecoderRejectsExactlyTheUnimplementedSpace :
    decodeWord 0x0000 = .error (.unimplementedOpcode 0x0000) ∧ (∃ i, decodeWord 0x00E0 = .ok i) := by
  exact ⟨by decide, .cls, by decide⟩

theorem witness_DecoderAgreesWithTheExclusiveOpcodeMap :
    ∃ r, r ∈ opcodeMap ∧ r.matchesWord 0x1234 = true := by
  exact ⟨⟨"JP_NNN", 0x1000, 0xF000⟩, by decide, by decide⟩

theorem witness_FetchIsBigEndianAndChecked :
    (atPc 0).pc.toNat + 1 < 4096 ∧ (atPc 0xFFE).pc.toNat + 1 < 4096 ∧ (atPc 0xFFF).pc.toNat = 4095 ∧ 4096 ≤ (atPc 0x1000).pc.toNat ∧
      4096 ≤ (atPc 0xFFFF).pc.toNat := by
  decide

theorem witness_StepRunsTheDecodedInstruction :
    FetchReady (put (atPc 0xFFE) 0x6101) ∧ InstrAtPc (put (atPc 0xFFE) 0x6101) (.ldImm 1 1) := by
  exact ⟨by unfold FetchReady; decide, by unfold InstrAtPc; decide⟩

theorem witness_StepWhileAwaitingKeyChangesNothing :
    (waiting 0).blk = .awaitingKey 0 ∧ ((waiting 15).setPc 0xFFFF).blk = .awaitingKey 15 := by
  decide

theorem witness_StepRaisesUnimplementedExactlyForItsWords :
    step (put (atPc 0xFFE) 0x812F) = .fault (.unimplementedOpcode 0x812F 0xFFE) := by
  exact fault_of_raises (by decide)

theorem witness_StepErrorsAreThoseOfTheList :
    step (atPc 0xFFF) = .fault (.outOfBounds 4096) ∧ step (atPc 0xFFFF) = .fault (.outOfBounds 0xFFFF) ∧
      step (put (atPc 0xFFE) 0x0000) = .fault (.unimplementedOpcode 0x0000 0xFFE) ∧
      step (put (atPc 0xFFE) 0x00EE) = .fault .stackUnderflow ∧ step (put (deep 16) 0x2FFF) = .fault .stackOverflow ∧
      step (put ((State.construct false).setIdx 0xFFF) 0xD012) = .fault (.outOfBounds 4096) ∧
      step (put ((State.construct false).setIdx 0xFFFF) 0xF033) = .fault (.outOfBounds 0xFFFF) ∧
      step (put ((State.construct false).setIdx 0x1000) 0xF055) = .fault (.outOfBounds 4096) ∧
      step (put ((State.construct false).setIdx 0xFF1) 0xFF65) = .fault (.outOfBounds 4096) := by
  exact ⟨fault_of_raises (by decide), fault_of_raises (by decide), fault_of_raises (by decide), fault_of_raises (by decide), fault_of_raises (by decide), fault_of_raises (by decide), fault_of_raises (by decide), fault_of_raises (by decide), fault_of_raises (by decide)⟩

theorem witness_RecordedAddressLiesBetween4096And65535 :
    step (atPc 0x1000) = .fault (.outOfBounds 4096) ∧ step (put ((State.construct false).setIdx 0xFFFF) 0xF065) = .fault (.outOfBounds 0xFFFF) := by
  exact ⟨fault_of_raises (by decide), fault_of_raises (by decide)⟩

theorem witness_ErrorLeavesTheStateAndRepeats :
    step (State.construct false) = .fault (.unimplementedOpcode 0x0000 0x200) := by
  exact fault_of_raises (by decide)

theorem witness_CallPushesTheNextAddressOrOverflows :
    (deep 0).stack.length < 16 ∧ (deep 15).stack.length < 16 ∧ 16 ≤ (deep 16).stack.length ∧
      goes (exec (.call 0) ((deep 15).setPc 0xFFFE)) (fun t => t.stack.length == 16 && t.stack.head? == some 0) = true := by
  decide

theorem witness_ReturnPopsTheTopOrUnderflows :
    (deep 16).stack = 0x202 :: List.replicate 15 0x202 ∧ (deep 0).stack = [] := by
  decide

theorem witness_ReturnUndoesCall :
    (deep 15).stack.length < 16 ∧ ∃ t, exec (.call 0x300) (deep 15) = .next t ∧ ((atPc 0x310).setStack t.stack).stack = t.stack := by
  exact ⟨by decide, _, rfl, rfl⟩

theorem witness_NextPcFollowsTheClassOfTheInstruction :
    (∃ t, exec (.jpV0 0xFFF) (withV [(0, 0xFF)]) = .next t ∧ t.pc.toNat = 0x10FE) ∧ step (atPc 0x1000) = .fault (.outOfBounds 4096) := by
  exact ⟨⟨_, rfl, by decide⟩, fault_of_raises (by decide)⟩

/-- For AddRegisterGivesSumAndCarry, SubtractGivesDifferenceAndNoBorrow, SubtractReverseGivesDifferenceAndNoBorrow,
ShiftRightHalvesTheSource and ShiftLeftDoublesTheSource: a destination that is not VF, and VF itself. -/
theorem witness_ArithmeticDestinations :
    (14 : Nibble) ≠ 15 ∧ (0 : Nibble) ≠ 15 ∧
      goes (exec (.addReg 15 0) (withV [(15, 1)])) (fun t => t.getV 15 == 0) = true ∧
      goes (exec (.addReg 14 14) (withV [(14, 0x80)])) (fun t => t.getV 14 == 0 && t.getV 15 == 1) = true := by
  decide

theorem witness_RandomIsTheAnswerUnderTheMask :
    ∃ s : State, s.ports.rng = 0xA7 :: [] ∧ goes (exec (.rnd 15 0) s) (fun t => t.getV 15 == 0 && t.ports.calls == [.rngByte]) = true := by
  exact ⟨(State.construct false).setPorts { Ports.reset with rng := [0xA7] }, rfl, by decide⟩

theorem witness_DecimalStoreWritesThreeDigits :
    ((State.construct false).setIdx 0).idxAddr + 2 < 4096 ∧ ((State.construct false).setIdx 0xFFD).idxAddr + 2 < 4096 ∧
      4096 ≤ ((State.construct false).setIdx 0xFFE).idxAddr + 2 ∧ 4096 ≤ ((State.construct false).setIdx 0xFFFF).idxAddr + 2 ∧
      goes (exec (.ldB 0) ((withV [(0, 255)]).setIdx 0xFFD)) (fun t => t.mem.readBytes 0xFFD 3 == [2, 5, 5]) = true := by
  decide

theorem witness_BlockStoreWritesTheRegisters :
    ((State.construct false).setIdx 0xFF0).idxAddr + (15 : Nibble).toNat < 4096 ∧ ((State.construct false).setIdx 0xFFF).idxAddr + (0 : Nibble).toNat < 4096 ∧
      4096 ≤ ((State.construct false).setIdx 0xFF1).idxAddr + (15 : Nibble).toNat ∧ 4096 ≤ ((State.construct false).setIdx 0x1000).idxAddr + (0 : Nibble).toNat ∧
      goes (exec (.storeRegs 15) ((withV [(0, 1), (15, 9)]).setIdx 0xFF0)) (fun t => t.readByte 0xFF0 == 1 && t.readByte 0xFFF == 9 && t.idx == 0x1000) = true := by
  decide

theorem witness_BlockLoadReadsTheRegisters :
    ((State.construct false).setIdx 0xFF0).idxAddr + (15 : Nibble).toNat < 4096 ∧ 4096 ≤ ((State.construct false).setIdx 0xFFFF).idxAddr + (0 : Nibble).toNat ∧
      (0 : Nibble).toNat ≤ (0 : Nibble).toNat ∧ (14 : Nibble).toNat < (15 : Nibble).toNat ∧
      goes (exec (.loadRegs 1) ((withV [(2, 7)]).setIdx 4)) (fun t => t.getV 0 == 0xF0 && t.getV 1 == 0x20 && t.getV 2 == 7) = true := by
  decide

theorem witness_BlockLoadRestoresWhatBlockStoreSaved :
    ((withV [(0, 0x11), (3, 0x44)]).setIdx 0xFFC).idxAddr + (3 : Nibble).toNat < 4096 ∧
      ∃ t, exec (.storeRegs 3) ((withV [(0, 0x11), (3, 0x44)]).setIdx 0xFFC) = .next t ∧
        (((State.construct false).setIdx 0xFFC).setMem t.mem).mem = t.mem := by
  exact ⟨by decide, _, rfl, rfl⟩

theorem witness_StoredBytesAreFetchedNext :
    (2 : Nibble).toNat + 1 ≤ (3 : Nibble).toNat ∧ ((atPc 0x202).setIdx 0x202).idxAddr + (3 : Nibble).toNat < 4096 ∧
      (((atPc 0x202).setIdx 0x202).pc.toNat + 2) % 65536 = ((atPc 0x202).setIdx 0x202).idxAddr + (2 : Nibble).toNat := by
  decide

theorem witness_DrawHandsTheSpriteToTheDisplay :
    ((State.construct false).setIdx 0xFF1).idxAddr + (15 : Nibble).toNat ≤ 4096 ∧ (0 : Nibble).toNat = 0 ∧
      (1 : Nibble).toNat ≠ 0 ∧ 4096 < ((State.construct false).setIdx 0x1000).idxAddr + (1 : Nibble).toNat ∧
      4096 < ((State.construct false).setIdx 0xFF2).idxAddr + (15 : Nibble).toNat ∧
      ((State.construct false).setPorts { Ports.reset with collisions := [false] }).ports.collisions = false :: [] ∧
      goes (exec (.drw 0 0 0) (((State.construct false).setIdx 0x1000).setPorts { Ports.reset with collisions := [false] }))
        (fun t => t.ports.calls == [.draw 0 0 []] && t.getV 15 == 0) = true := by
  decide

theorem witness_KeySkipsFollowTheAnswer :
    ((withV [(4, 0xFF)]).setPorts { Ports.reset with keys := [false, true] }).ports.keys = false :: [true] ∧
      goes (exec (.skp 4) ((withV [(4, 0xFF)]).setPorts { Ports.reset with keys := [false, true] }))
        (fun t => t.pc == 0x202 && t.ports.calls == [.isPressed 0xFF] && t.ports.keys == [true]) = true := by
  decide

theorem witness_ResumeWritesTheKeyAndAdvances :
    ((waiting 15).setPc 0xFFE).blk = .awaitingKey 15 ∧ (((waiting 15).setPc 0xFFE).resumeWithKey 9).getV 15 = 9 := by
  decide

theorem witness_RomLoadWritesTheProgram :
    0x200 + (List.replicate 3584 (1 : Byte)).length ≤ 4096 ∧ 0x200 + ([] : List Byte).length ≤ 4096 ∧
      4096 < 0x200 + (List.replicate 3585 (1 : Byte)).length := by
  rw [List.length_replicate, List.length_replicate]; decide

theorem witness_RejectedRomChangesNothing :
    3584 < (List.replicate 3585 (1 : Byte)).length ∧ (List.replicate 3584 (1 : Byte)).length = 3584 := by
  rw [List.length_replicate, List.length_replicate]; decide

theorem witness_BlockedInputTransitionsAreTheListed :
    (put (State.construct false) 0xF50A).blk = .running ∧ ((put (State.construct false) 0xF50A).transact .step).1.blk = .awaitingKey 5 ∧
      (waiting 5).blk = .awaitingKey 5 ∧ ((waiting 5).transact (.resumeWithKey 0)).1.blk = .running ∧
      ((waiting 5).transact .softReset).1.blk = .running ∧ ((waiting 5).transact .step).1.blk = .awaitingKey 5 := by
  decide

theorem witness_EveryStepKeepsTheInvariant :
    (State.construct false).Inv ∧ ((deep 15).setPc 0xFFE).Inv ∧ ((waiting 3).setPc 0xFFE).Inv ∧ (atPc 0x10FE).Inv ∧
      goes (step (put (State.construct false) 0x1FFF)) (fun t => t.pc == 0xFFF) = true := by
  exact ⟨inv_of _ rfl (by decide) (by decide) (fun _ h => absurd h List.not_mem_nil) (by decide),
    inv_of _ rfl (by decide) (by decide) (fun a h => by rw [List.eq_of_mem_replicate h]; decide) (by decide),
    inv_of _ rfl (by decide) (by decide) (fun _ h => absurd h List.not_mem_nil) (by decide), inv_of _ rfl (by decide) (by decide) (fun _ h => absurd h List.not_mem_nil) (by decide), by decide⟩

theorem witness_EveryDrivenMachineMeetsTheInvariant :
    ((State.construct true).transactAll [.loadRom [0xF5, 0x0A], .step, .tickTimers, .resumeWithKey 7]).getV 5 = 7 := by
  decide

theorem witness_OnlyShiftsReadTheShiftFlag :
    (∀ x y, Instr.cls ≠ .shr x y ∧ Instr.cls ≠ .shl x y) ∧ (∃ t, exec .cls (State.construct false) = .next t) ∧
      (∀ x y, Instr.ret ≠ .shr x y ∧ Instr.ret ≠ .shl x y) ∧ exec .ret (State.construct false) = .fault .stackUnderflow := by
  exact ⟨fun _ _ => ⟨by simp, by simp⟩, ⟨_, rfl⟩, fun _ _ => ⟨by simp, by simp⟩, rfl⟩

theorem witness_OnlyTheStoresWriteMemory :
    goes (step (put ((withV [(0, 255)]).setIdx 0x300) 0xF033)) (fun t => t.readByte 0x302 != (State.construct false).readByte 0x302) = true ∧
      goes (step (put ((withV [(15, 9)]).setIdx 0xFF0) 0xFF55)) (fun t => t.readByte 0xFFF != (State.construct false).readByte 0xFFF) = true := by
  decide

theorem witness_OnlyDestinationsAndFlagsChangeRegisters :
    goes (exec (.ldImm 15 1) (State.construct false)) (fun t => t.getV 15 != 0) = true ∧
      goes (exec (.sub 0 0) (State.construct false)) (fun t => t.getV 15 != 0) = true ∧
      goes (exec (.loadRegs 15) (State.construct false)) (fun t => t.getV 15 != 0) = true := by
  decide

theorem witness_OnlyListedInstructionsWriteControlState :
    goes (exec (.loadRegs 0) (State.construct false)) (fun t => t.idx != 0) = true ∧ goes (exec .ret (deep 1)) (fun t => t.stack != [0x202]) = true ∧
      goes (exec (.ldDtVx 0) (withV [(0, 1)])) (fun t => t.dt != 0) = true ∧ goes (exec (.ldStVx 0) (withV [(0, 1)])) (fun t => t.st != 0) = true ∧
      goes (exec (.ldVxK 0) (State.construct false)) (fun t => t.blk != .running) = true := by
  decide

theorem witness_EachInstructionMakesItsHostCall :
    ∃ t, exec (.drw 0 1 15) ((withV [(0, 0xFF), (1, 0xFF)]).setIdx 0xFF1) = .next t ∧
      t.ports.calls = .draw 63 31 (List.replicate 15 0) :: ((withV [(0, 0xFF), (1, 0xFF)]).setIdx 0xFF1).ports.calls := by
  exact ⟨_, rfl, by decide⟩

theorem witness_DrawFlipsTheCoveredPixels :
    (63 < 64 ∧ 31 < 32 ∧ (List.replicate 15 (0xFF : Byte)).length ≤ 15) ∧
      (Grid.blank.draw .clip 63 31 [0xFF]).pixel 63 31 = true ∧ (Grid.blank.draw .clip 63 31 [0xFF]).collides .clip 63 31 [0xFF] = true := by
  decide

end Sys2Proof.Tests
end

section
/-! PROOFS. What an instruction that does not raise writes to the memory, the stack, the blocked-input state, the pc and the host's
calls; from it the invariant's step lemma and the host calls of each instruction. -/

namespace Sys2Proof.Machine

/-! ## What a passed access and a passed fetch say -/

theorem State.memRead_ok {s : State} {addr n : Nat} {bs : List Byte} (h : s.memRead addr n = .ok bs) :
    (n = 0 ∨ addr + n ≤ 4096) ∧ bs = s.mem.readBytes addr n := by
  rw [State.memRead_eq] at h
  split at h
  · next hb => injection h with h; exact ⟨hb, h.symm⟩
  · cases h

theorem State.memWrite_ok {s t : State} {addr : Nat} {bs : List Byte} (h : s.memWrite addr bs = .ok t) :
    (bs = [] ∨ addr + bs.length ≤ 4096) ∧ t = s.setMem (s.mem.writeBytes addr bs) := by
  rw [State.memWrite_eq] at h
  split at h
  · next hb => injection h with h; exact ⟨hb.imp_left List.length_eq_zero_iff.1, h.symm⟩
  · cases h

theorem State.pc_le_of_fetch_ok {s : State} {op : Word} (h : s.fetch = .ok op) : s.pc.toNat ≤ 0xFFE := by
  rw [State.fetch_eq] at h
  split at h
  · omega
  · cases h

/-! ## The instructions that can raise, when they do not -/

theorem execRet_next {s t : State} (h : execRet s = .next t) :
    ∃ a rest, s.stack = a :: rest ∧ t = (s.setStack rest).setPc a := by
  unfold execRet at h
  split at h
  · cases h
  · next a rest hs => injection h with h; exact ⟨a, rest, hs, h.symm⟩

theorem execCall_next {nnn : Addr12} {s t : State} (h : execCall nnn s = .next t) :
    s.stack.length < 16 ∧ t = (s.setStack ((s.pc + 2) :: s.stack)).setPc (target12 nnn) := by
  unfold execCall at h
  split at h
  · next hl => injection h with h; exact ⟨hl, h.symm⟩
  · cases h

theorem execDrw_next {x y n : Nibble} {s t : State} (h : execDrw x y n s = .next t) :
    ∃ rows flag, s.memRead s.idxAddr n.toNat = .ok rows ∧
      t = ((s.afterDraw (s.spriteColumn x) (s.spriteRow y) rows).setV regF flag).advance := by
  unfold execDrw at h
  split at h
  · cases h
  · next rows hr => injection h with h; exact ⟨rows, _, hr, h.symm⟩

theorem execLdB_next {x : Nibble} {s t : State} (h : execLdB x s = .next t) :
    s.idxAddr + 3 ≤ 4096 ∧ t = (s.setMem (s.mem.writeBytes s.idxAddr (bcdDigits (s.getV x)))).advance := by
  unfold execLdB at h
  split at h
  · cases h
  · next u hw =>
    obtain ⟨hb, rfl⟩ := State.memWrite_ok hw
    injection h with h
    exact ⟨hb.resolve_left (List.cons_ne_nil _ _), h.symm⟩

theorem execStoreRegs_next {x : Nibble} {s t : State} (h : execStoreRegs x s = .next t) :
    s.idxAddr + (s.regBlock x).length ≤ 4096 ∧
      t = ((s.setMem (s.mem.writeBytes s.idxAddr (s.regBlock x))).setIdx (s.idxAfterBlock x)).advance := by
  unfold execStoreRegs at h
  split at h
  · cases h
  · next u hw =>
    obtain ⟨hb, rfl⟩ := State.memWrite_ok hw
    injection h with h
    have hne : s.regBlock x ≠ [] := List.ne_nil_of_length_pos (by simp)
    exact ⟨hb.resolve_left hne, h.symm⟩

theorem execLoadRegs_next {x : Nibble} {s t : State} (h : execLoadRegs x s = .next t) :
    ∃ bs, s.memRead s.idxAddr (blockLength x) = .ok bs ∧ t = ((s.setVs 0 bs).setIdx (s.idxAfterBlock x)).advance := by
  unfold execLoadRegs at h
  split at h
  · cases h
  · next bs hr => injection h with h; exact ⟨bs, hr, h.symm⟩

/-! ## What an instruction writes

Each lemma splits on the instruction: the six that can raise go through their lemma above, and the answer of any other is a state
written out in its definition. -/

/-- The bytes an instruction stores at `I`: LD B and LD [I] store, no other does (R100, R101). -/
def bytesStored (i : Instr) (s : State) : List Byte :=
  match i with
  | .ldB x => bcdDigits (s.getV x)
  | .storeRegs x => s.regBlock x
  | _ => []

/-- The stack after an instruction: RET pops, CALL pushes the address after it, no other writes it (R28, R73, R75). -/
def stackAfter (i : Instr) (s : State) : List Word :=
  match i with
  | .ret => s.stack.tail
  | .call _ => (s.pc + 2) :: s.stack
  | _ => s.stack

/-- The blocked-input state after an instruction: LD Vx,K waits, no other writes it (R31, R108). -/
def blkAfter (i : Instr) (s : State) : Blk :=
  match i with
  | .ldVxK x => .awaitingKey x
  | _ => s.blk

theorem exec_writes {i : Instr} {s t : State} (h : exec i s = .next t) :
    t.mem = s.mem.writeBytes s.idxAddr (bytesStored i s) ∧ t.stack = stackAfter i s ∧ t.blk = blkAfter i s := by
  cases i
  case ret => obtain ⟨a, rest, hs, rfl⟩ := execRet_next h; exact ⟨rfl, by simp [stackAfter, hs], rfl⟩
  case call nnn => obtain ⟨-, rfl⟩ := execCall_next h; exact ⟨rfl, rfl, rfl⟩
  case drw x y n => obtain ⟨rows, flag, -, rfl⟩ := execDrw_next h; exact ⟨rfl, rfl, rfl⟩
  case ldB x => obtain ⟨-, rfl⟩ := execLdB_next h; exact ⟨rfl, rfl, rfl⟩
  case storeRegs x => obtain ⟨-, rfl⟩ := execStoreRegs_next h; exact ⟨rfl, rfl, rfl⟩
  case loadRegs x =>
    obtain ⟨bs, -, rfl⟩ := execLoadRegs_next h
    exact ⟨s.setVs_mem 0 bs, s.setVs_stack 0 bs, s.setVs_blk 0 bs⟩
  all_goals cases h; exact ⟨rfl, rfl, rfl⟩

theorem exec_mem {i : Instr} {s t : State} (h : exec i s = .next t) :
    t.mem = s.mem.writeBytes s.idxAddr (bytesStored i s) := (exec_writes h).1

theorem exec_stack {i : Instr} {s t : State} (h : exec i s = .next t) : t.stack = stackAfter i s := (exec_writes h).2.1

theorem exec_blk {i : Instr} {s t : State} (h : exec i s = .next t) : t.blk = blkAfter i s := (exec_writes h).2.2

theorem exec_bytesStored_fit {i : Instr} {s t : State} (h : exec i s = .next t) :
    bytesStored i s = [] ∨ s.idxAddr + (bytesStored i s).length ≤ 4096 := by
  cases i
  case ldB x => exact .inr (execLdB_next h).1
  case storeRegs x => exact .inr (execStoreRegs_next h).1
  all_goals exact .inl rfl

theorem State.skipIf_pc_toNat (s : State) (c : Bool) : (s.skipIf c).pc.toNat = skipPc s c := by
  cases c <;> exact BitVec.toNat_add s.pc _

/-- The next-PC law for one instruction (R70). -/
theorem exec_pc {i : Instr} {s t : State} (h : exec i s = .next t) : t.pc.toNat = pcAfter i s := by
  cases i
  case ret => obtain ⟨a, rest, hs, rfl⟩ := execRet_next h; simp only [State.setPc_pc, pcAfter, hs, List.headD_cons]
  case call nnn => obtain ⟨-, rfl⟩ := execCall_next h; exact target12_toNat nnn
  case drw x y n => obtain ⟨rows, flag, -, rfl⟩ := execDrw_next h; exact BitVec.toNat_add s.pc 2
  case ldB x => obtain ⟨-, rfl⟩ := execLdB_next h; exact BitVec.toNat_add s.pc 2
  case storeRegs x => obtain ⟨-, rfl⟩ := execStoreRegs_next h; exact BitVec.toNat_add s.pc 2
  case loadRegs x => obtain ⟨bs, -, rfl⟩ := execLoadRegs_next h; simp [pcAfter]
  case jp nnn => cases h; exact target12_toNat nnn
  case jpV0 nnn => cases h; exact s.targetV0_toNat nnn
  case seImm | sneImm | seReg | sneReg => cases h; rw [State.skipIf_pc_toNat]; simp [pcAfter, beq_eq_decide, bne]
  case skp | sknp => cases h; exact State.skipIf_pc_toNat _ _
  case ldVxK => cases h; rfl
  all_goals cases h; exact BitVec.toNat_add s.pc 2

/-- A draw hands over the rows it read, so at most 15. -/
theorem exec_calls {i : Instr} {s t : State} (h : exec i s = .next t) :
    ∃ rows : List Byte, rows.length ≤ 15 ∧ t.ports.calls = hostCallsOf i s rows ++ s.ports.calls := by
  cases i
  case ret => obtain ⟨a, rest, -, rfl⟩ := execRet_next h; exact ⟨[], Nat.zero_le _, rfl⟩
  case call nnn => obtain ⟨-, rfl⟩ := execCall_next h; exact ⟨[], Nat.zero_le _, rfl⟩
  case drw x y n =>
    obtain ⟨rows, flag, hr, rfl⟩ := execDrw_next h
    obtain ⟨-, rfl⟩ := State.memRead_ok hr
    exact ⟨_, by rw [Memory.readBytes_length]; have := n.isLt; omega, rfl⟩
  case ldB x => obtain ⟨-, rfl⟩ := execLdB_next h; exact ⟨[], Nat.zero_le _, rfl⟩
  case storeRegs x => obtain ⟨-, rfl⟩ := execStoreRegs_next h; exact ⟨[], Nat.zero_le _, rfl⟩
  case loadRegs x => obtain ⟨bs, -, rfl⟩ := execLoadRegs_next h; exact ⟨[], Nat.zero_le _, by simp [hostCallsOf]⟩
  all_goals cases h; exact ⟨[], Nat.zero_le _, rfl⟩

/-! ## The invariant, clause by clause -/

theorem exec_keeps_mem_wf {i : Instr} {s t : State} (hm : s.mem.wf) (h : exec i s = .next t) : t.mem.wf := by
  rw [exec_mem h]
  rcases exec_bytesStored_fit h with hnil | hfit
  · rw [hnil]; exact hm
  · exact Memory.writeBytes_wf _ _ _ hm hfit

/-- Only CALL makes the stack longer, and it raises on a full one (R120). -/
theorem exec_keeps_stack_length {i : Instr} {s t : State} (hl : s.stack.length ≤ 16) (h : exec i s = .next t) :
    t.stack.length ≤ 16 := by
  rw [exec_stack h]
  cases i
  case ret => simp only [stackAfter, List.length_tail]; omega
  case call => exact (execCall_next h).1
  all_goals exact hl

/-- The address CALL pushes is at most 0x1000, since CALL itself was fetched from at most 0xFFE (D5). -/
theorem exec_keeps_return_addresses {i : Instr} {s t : State} (hp : s.pc.toNat ≤ 0xFFE)
    (ha : ∀ a ∈ s.stack, a.toNat ≤ 0x1000) (h : exec i s = .next t) : ∀ a ∈ t.stack, a.toNat ≤ 0x1000 := by
  rw [exec_stack h]
  cases i
  case ret => exact fun a hmem => ha a (List.mem_of_mem_tail hmem)
  case call =>
    have hpush : (s.pc + 2).toNat ≤ 0x1000 := by bv_omega
    exact List.forall_mem_cons.2 ⟨hpush, ha⟩
  all_goals exact ha

theorem skipPc_le {s : State} (c : Bool) (hp : s.pc.toNat ≤ 0xFFE) : skipPc s c ≤ 0x1002 := by
  unfold skipPc; split <;> omega

/-- JP V0 reaches farthest: an operand of at most 0xFFF and a byte (R71). -/
theorem exec_pc_le {i : Instr} {s t : State} (hp : s.pc.toNat ≤ 0xFFE) (ha : ∀ a ∈ s.stack, a.toNat ≤ 0x1000)
    (h : exec i s = .next t) : t.pc.toNat ≤ 0x10FE := by
  rw [exec_pc h]
  cases i
  case jp nnn | call nnn => exact le_trans (Nat.le_of_lt nnn.isLt) (by decide)
  case jpV0 nnn =>
    have hn := nnn.isLt
    have hv := (s.getV 0).isLt
    simp only [pcAfter]; omega
  case ret =>
    obtain ⟨a, rest, hs, -⟩ := execRet_next h
    have htop := ha a (by simp [hs])
    simp only [pcAfter, hs, List.headD_cons]; omega
  case seImm | sneImm | seReg | sneReg | skp | sknp => exact le_trans (skipPc_le _ hp) (by decide)
  all_goals simp only [pcAfter]; omega

/-- A wait that an instruction began is at the pc the instruction was fetched from. -/
theorem exec_waits_at_fetched_pc {i : Instr} {s t : State} (hb : s.blk = .running) (hp : s.pc.toNat ≤ 0xFFE)
    (h : exec i s = .next t) (hw : t.blk ≠ .running) : t.pc.toNat ≤ 0xFFE := by
  rw [exec_blk h] at hw
  rw [exec_pc h]
  cases i
  case ldVxK => exact hp
  all_goals exact absurd hb hw

theorem exec_keeps_inv {i : Instr} {s t : State} (hs : s.Inv) (hb : s.blk = .running) (hp : s.pc.toNat ≤ 0xFFE)
    (h : exec i s = .next t) : t.Inv := by
  obtain ⟨hmem, hlen, -, hret, -⟩ := hs
  exact ⟨exec_keeps_mem_wf hmem h, exec_keeps_stack_length hlen h, exec_pc_le hp hret h,
    exec_keeps_return_addresses hp hret h, exec_waits_at_fetched_pc hb hp h⟩

/-- Settles O50: a step that waits changes nothing, and any other runs an instruction it fetched from a pc of at most 0xFFE. -/
theorem everyStepKeepsTheInvariant : Obligations.EveryStepKeepsTheInvariant := by
  intro s t hs h
  rcases step_next_cases h with ⟨r, -, rfl⟩ | ⟨hb, op, i, hf, -, hi⟩
  · exact hs
  · exact exec_keeps_inv hs hb (State.pc_le_of_fetch_ok hf) hi

/-! ## Host calls -/

/-- Of the calls instructions make, a draw is DRW's, and its place is reduced into 64 by 32 (R104). -/
theorem draw_of_hostCallsOf {i : Instr} {s : State} {rows rows' : List Byte} {x y : Nat}
    (h : hostCallsOf i s rows = [.draw x y rows']) : x < 64 ∧ y < 32 ∧ rows' = rows := by
  cases i
  case drw =>
    cases h
    exact ⟨Nat.mod_lt _ (by decide), Nat.mod_lt _ (by decide), rfl⟩
  all_goals cases h

/-- Settles O57: the calls are those of `exec_calls`, and the newest of them is a draw only for DRW. -/
theorem eachInstructionMakesItsHostCall : Obligations.EachInstructionMakesItsHostCall := by
  intro i s t h
  obtain ⟨rows, hlen, hcalls⟩ := exec_calls h
  refine ⟨⟨rows, hcalls⟩, fun x y rows' hdraw => ?_⟩
  have hone : hostCallsOf i s rows = [.draw x y rows'] :=
    List.append_cancel_right (hcalls.symm.trans hdraw)
  obtain ⟨hx, hy, rfl⟩ := draw_of_hostCallsOf hone
  exact ⟨hx, hy, hlen⟩

end Sys2Proof.Machine
end

section
/-! PROOFS. Who writes and who reads each part of the state: `I`, the timers and the registers after an instruction that does not
raise, the bytes a step changes, and SHIFT_USES_VY, which nothing writes and only the shifts read. -/

namespace Sys2Proof.Machine

/-! ## The index register, the timers, SHIFT_USES_VY -/

/-- `I` after an instruction: the five writers of R26 (R97 to R99, R101, R102), no other writes it. -/
def idxAfter (i : Instr) (s : State) : Word :=
  match i with
  | .ldI nnn => target12 nnn
  | .addI x => s.idxPlus x
  | .ldF x => s.glyphAddr x
  | .storeRegs x => s.idxAfterBlock x
  | .loadRegs x => s.idxAfterBlock x
  | _ => s.idx

/-- `DT` after an instruction: LD DT,Vx writes it, no other does (R29, R109). -/
def dtAfter (i : Instr) (s : State) : Byte :=
  match i with
  | .ldDtVx x => s.getV x
  | _ => s.dt

/-- `ST` after an instruction: LD ST,Vx writes it, no other does (R30, R110). -/
def stAfter (i : Instr) (s : State) : Byte :=
  match i with
  | .ldStVx x => s.getV x
  | _ => s.st

theorem exec_control_writes {i : Instr} {s t : State} (h : exec i s = .next t) :
    t.idx = idxAfter i s ∧ t.dt = dtAfter i s ∧ t.st = stAfter i s ∧ t.shiftUsesVy = s.shiftUsesVy := by
  cases i
  case ret => obtain ⟨a, rest, -, rfl⟩ := execRet_next h; exact ⟨rfl, rfl, rfl, rfl⟩
  case call nnn => obtain ⟨-, rfl⟩ := execCall_next h; exact ⟨rfl, rfl, rfl, rfl⟩
  case drw x y n => obtain ⟨rows, flag, -, rfl⟩ := execDrw_next h; exact ⟨rfl, rfl, rfl, rfl⟩
  case ldB x => obtain ⟨-, rfl⟩ := execLdB_next h; exact ⟨rfl, rfl, rfl, rfl⟩
  case storeRegs x => obtain ⟨-, rfl⟩ := execStoreRegs_next h; exact ⟨rfl, rfl, rfl, rfl⟩
  case loadRegs x =>
    obtain ⟨bs, -, rfl⟩ := execLoadRegs_next h
    exact ⟨rfl, s.setVs_dt 0 bs, s.setVs_st 0 bs, s.setVs_shiftUsesVy 0 bs⟩
  all_goals cases h; exact ⟨rfl, rfl, rfl, rfl⟩

theorem exec_idx {i : Instr} {s t : State} (h : exec i s = .next t) : t.idx = idxAfter i s := (exec_control_writes h).1

theorem exec_dt {i : Instr} {s t : State} (h : exec i s = .next t) : t.dt = dtAfter i s := (exec_control_writes h).2.1

theorem exec_st {i : Instr} {s t : State} (h : exec i s = .next t) : t.st = stAfter i s := (exec_control_writes h).2.2.1

theorem exec_shiftUsesVy {i : Instr} {s t : State} (h : exec i s = .next t) : t.shiftUsesVy = s.shiftUsesVy :=
  (exec_control_writes h).2.2.2

/-! ## The writers of each part, read off its value after the instruction -/

theorem idx_writer {i : Instr} {s : State} (h : idxAfter i s ≠ s.idx) :
    (∃ nnn, i = .ldI nnn) ∨ ∃ x, i = .addI x ∨ i = .ldF x ∨ i = .storeRegs x ∨ i = .loadRegs x := by
  unfold idxAfter at h
  split at h
  · next nnn => exact .inl ⟨nnn, rfl⟩
  · next x => exact .inr ⟨x, .inl rfl⟩
  · next x => exact .inr ⟨x, .inr (.inl rfl)⟩
  · next x => exact .inr ⟨x, .inr (.inr (.inl rfl))⟩
  · next x => exact .inr ⟨x, .inr (.inr (.inr rfl))⟩
  · exact absurd rfl h

theorem stack_writer {i : Instr} {s : State} (h : stackAfter i s ≠ s.stack) : i = .ret ∨ ∃ nnn, i = .call nnn := by
  unfold stackAfter at h
  split at h
  · exact .inl rfl
  · next nnn => exact .inr ⟨nnn, rfl⟩
  · exact absurd rfl h

theorem dt_writer {i : Instr} {s : State} (h : dtAfter i s ≠ s.dt) : ∃ x, i = .ldDtVx x := by
  unfold dtAfter at h
  split at h
  · next x => exact ⟨x, rfl⟩
  · exact absurd rfl h

theorem st_writer {i : Instr} {s : State} (h : stAfter i s ≠ s.st) : ∃ x, i = .ldStVx x := by
  unfold stAfter at h
  split at h
  · next x => exact ⟨x, rfl⟩
  · exact absurd rfl h

theorem blk_writer {i : Instr} {s : State} (h : blkAfter i s ≠ s.blk) : ∃ x, i = .ldVxK x := by
  unfold blkAfter at h
  split at h
  · next x => exact ⟨x, rfl⟩
  · exact absurd rfl h

/-- Settles O56: each part has the value its `…After` gives, which differs from the one before only for its writers. -/
theorem onlyListedInstructionsWriteControlState : Obligations.OnlyListedInstructionsWriteControlState := by
  intro i s t h
  rw [exec_idx h, exec_stack h, exec_dt h, exec_st h, exec_blk h]
  exact ⟨idx_writer, stack_writer, dt_writer, st_writer, blk_writer⟩

/-! ## The general registers -/

theorem State.setV_changes {s : State} {x r : Nibble} {b : Byte} (h : (s.setV x b).getV r ≠ s.getV r) : x = r :=
  Classical.byContradiction fun hne => h (s.getV_setV_ne x r b hne)

theorem State.setResultAndFlag_changes {s : State} {x r : Nibble} {b : Byte} {c : Bool}
    (h : (s.setResultAndFlag x b c).getV r ≠ s.getV r) : x = r ∨ r = 15 := by
  by_cases hflag : regF = r
  · exact .inr hflag.symm
  · exact .inl (State.setV_changes (by rwa [State.setResultAndFlag, State.getV_setV_ne _ _ _ _ hflag] at h))

theorem State.setVs_changes {s : State} {bs : List Byte} {r : Nibble} (hfit : bs.length ≤ 16)
    (h : (s.setVs 0 bs).getV r ≠ s.getV r) : r.toNat < bs.length := by
  rw [State.setVs_getV s 0 bs r (by omega)] at h
  split at h
  · next hr => omega
  · exact absurd rfl h

/-- Settles O55: an instruction that writes registers does so by one write to its destination, by such a write followed by the flag, by
the flag alone (DRW), or by the block load; every other leaves the register file. -/
theorem onlyDestinationsAndFlagsChangeRegisters : Obligations.OnlyDestinationsAndFlagsChangeRegisters := by
  intro i s t r h hne
  cases i
  case ldImm | addImm | ldReg | orReg | andReg | xorReg | ldVxDt =>
    cases h; exact .inl (congrArg some (State.setV_changes hne))
  case rnd =>
    cases h; exact .inl (congrArg some (State.setV_changes (s := s.afterRng) hne))
  case addReg | sub | shr | subn | shl =>
    cases h
    exact (State.setResultAndFlag_changes hne).imp (congrArg some) fun hr => .inl ⟨rfl, hr⟩
  case drw =>
    obtain ⟨rows, flag, -, rfl⟩ := execDrw_next h
    exact .inr (.inl ⟨rfl, (State.setV_changes (s := s.afterDraw _ _ rows) hne).symm⟩)
  case loadRegs x =>
    obtain ⟨bs, hr, rfl⟩ := execLoadRegs_next h
    obtain ⟨-, rfl⟩ := State.memRead_ok hr
    have hx := x.isLt
    have hlt := State.setVs_changes (by rw [Memory.readBytes_length, blockLength]; omega) hne
    rw [Memory.readBytes_length, blockLength] at hlt
    exact .inr (.inr ⟨x, rfl, by omega⟩)
  case ret => obtain ⟨a, rest, -, rfl⟩ := execRet_next h; exact absurd rfl hne
  case call => obtain ⟨-, rfl⟩ := execCall_next h; exact absurd rfl hne
  case ldB => obtain ⟨-, rfl⟩ := execLdB_next h; exact absurd rfl hne
  case storeRegs => obtain ⟨-, rfl⟩ := execStoreRegs_next h; exact absurd rfl hne
  all_goals cases h; exact absurd rfl hne

/-! ## Memory -/

/-- A fetch answers the opcode at the pc (R57). -/
theorem State.fetch_ok_opcodeAtPc {s : State} {op : Word} (h : s.fetch = .ok op) : BitVec.ofNat 16 (opcodeAtPc s) = op := by
  rw [State.fetch_eq] at h
  split at h
  · injection h with h
    rw [opcodeAtPc, ← bigEndian_toNat, BitVec.ofNat_toNat, BitVec.setWidth_eq, h]
  · cases h

theorem instrAtPc_of_fetch {s : State} {op : Word} {i : Instr} (hf : s.fetch = .ok op) (hd : decodeWord op = .ok i) :
    InstrAtPc s i := by
  rw [InstrAtPc, State.fetch_ok_opcodeAtPc hf, hd]

theorem fetchReady_of_fetch {s : State} {op : Word} (hb : s.blk = .running) (hf : s.fetch = .ok op) : FetchReady s := by
  have hpc := State.pc_le_of_fetch_ok hf
  exact ⟨hb, by omega⟩

/-- A byte an instruction changes is among those it stores at `I`. -/
theorem exec_changed_byte {i : Instr} {s t : State} {a : Nat} (h : exec i s = .next t) (hne : t.readByte a ≠ s.readByte a) :
    s.idxAddr ≤ a ∧ a < s.idxAddr + (bytesStored i s).length := by
  rw [State.readByte, exec_mem h, Memory.read_writeBytes] at hne
  split at hne
  · next hin => exact hin
  · exact absurd rfl hne

/-- Settles O54: a step that waits changes no byte; any other runs the instruction at the pc, which changes only the bytes it stores,
and only LD B and LD [I] store any. -/
theorem onlyTheStoresWriteMemory : Obligations.OnlyTheStoresWriteMemory := by
  intro s t a h hne
  rcases step_next_cases h with ⟨r, -, rfl⟩ | ⟨hb, op, i, hf, hd, hi⟩
  · exact absurd rfl hne
  · refine ⟨fetchReady_of_fetch hb hf, ?_⟩
    have hat := instrAtPc_of_fetch hf hd
    obtain ⟨hlo, hhi⟩ := exec_changed_byte hi hne
    cases i
    case ldB x => exact ⟨x, .inl ⟨hat, hlo, hhi⟩⟩
    case storeRegs x =>
      rw [bytesStored, State.regBlock_length] at hhi
      exact ⟨x, .inr ⟨hat, hlo, by omega⟩⟩
    all_goals exact absurd hhi (Nat.not_lt.2 hlo)

/-! ## The host's transactions -/

/-- What a transaction can leave: the state as it was, or what an accepted load, an `Ok` step, the timers, an awaited key or the soft
reset makes of it (R129). -/
theorem State.transact_cases {P : State → Prop} {s : State} (hsame : P s)
    (hload : ∀ bs, Config.loadAddr + bs.length ≤ Config.memSize → P (s.placeRom bs))
    (hstep : ∀ t, step s = .next t → P t) (htick : P s.tickTimers)
    (hresume : ∀ r k, s.blk = .awaitingKey r → P (s.resumeWithKey k)) (hreset : P s.softReset) (τ : Transaction) :
    P (s.transact τ).1 := by
  cases τ with
  | loadRom bs =>
    by_cases hfit : Config.loadAddr + bs.length ≤ Config.memSize
    · simpa only [State.transact, State.loadRom, if_pos hfit] using hload bs hfit
    · simpa only [State.transact, State.loadRom, if_neg hfit] using hsame
  | step =>
    cases ht : step s with
    | next t => simpa only [State.transact, ht] using hstep t ht
    | fault e => simpa only [State.transact, ht] using hsame
    | refused r => simpa only [State.transact, ht] using hsame
  | tickTimers => exact htick
  | resumeWithKey k =>
    cases hb : s.blk with
    | running => simpa only [State.transact, State.resumeWithKey, hb] using hsame
    | awaitingKey r => exact hresume r k hb
  | softReset => exact hreset

/-- What every transaction keeps holds after any sequence of them. -/
theorem State.transactAll_keeps {P : State → Prop} (hkeep : ∀ s τ, P s → P (s.transact τ).1) (τs : List Transaction)
    {s : State} (hs : P s) : P (s.transactAll τs) := by
  induction τs generalizing s with
  | nil => exact hs
  | cons τ τs ih => exact ih (hkeep s τ hs)

/-! ## SHIFT_USES_VY is never written -/

theorem step_shiftUsesVy {s t : State} (h : step s = .next t) : t.shiftUsesVy = s.shiftUsesVy := by
  rcases step_next_cases h with ⟨r, -, rfl⟩ | ⟨-, op, i, -, -, hi⟩
  · rfl
  · exact exec_shiftUsesVy hi

theorem State.resumeWithKey_shiftUsesVy (s : State) (k : Nibble) : (s.resumeWithKey k).shiftUsesVy = s.shiftUsesVy := by
  unfold State.resumeWithKey
  split <;> rfl

theorem State.transact_shiftUsesVy (s : State) (τ : Transaction) : (s.transact τ).1.shiftUsesVy = s.shiftUsesVy :=
  State.transact_cases (P := fun t => t.shiftUsesVy = s.shiftUsesVy) rfl (fun _ _ => rfl) (fun _ => step_shiftUsesVy) rfl
    (fun _ k _ => s.resumeWithKey_shiftUsesVy k) rfl τ

/-- Settles O52: construction sets the flag to its argument and each transaction keeps it. -/
theorem shiftFlagIsFixedAtConstruction : Obligations.ShiftFlagIsFixedAtConstruction :=
  ⟨State.transact_shiftUsesVy, fun b τs =>
    State.transactAll_keeps (P := fun t => t.shiftUsesVy = b) (fun s τ hs => (s.transact_shiftUsesVy τ).trans hs) τs rfl⟩

/-! ## Only the shifts read SHIFT_USES_VY -/

/-- The state with SHIFT_USES_VY set. -/
def State.withShiftFlag (s : State) (b : Bool) : State := { s with shiftUsesVy := b }

/-- The answer with SHIFT_USES_VY set in its next state; an error as it is. -/
def answerWithShiftFlag (b : Bool) : StepResult → StepResult
  | .next t => .next (t.withShiftFlag b)
  | .fault e => .fault e
  | .refused r => .refused r

@[simp] theorem State.withShiftFlag_stack (s : State) (b : Bool) : (s.withShiftFlag b).stack = s.stack := rfl
@[simp] theorem State.withShiftFlag_idxAddr (s : State) (b : Bool) : (s.withShiftFlag b).idxAddr = s.idxAddr := rfl
@[simp] theorem State.withShiftFlag_getV (s : State) (b : Bool) (x : Nibble) : (s.withShiftFlag b).getV x = s.getV x := rfl
@[simp] theorem State.withShiftFlag_regBlock (s : State) (b : Bool) (x : Nibble) : (s.withShiftFlag b).regBlock x = s.regBlock x := rfl
@[simp] theorem State.withShiftFlag_memRead (s : State) (b : Bool) (a n : Nat) : (s.withShiftFlag b).memRead a n = s.memRead a n := rfl

theorem State.withShiftFlag_memWrite (s : State) (b : Bool) (a : Nat) (bs : List Byte) :
    (s.withShiftFlag b).memWrite a bs = (s.memWrite a bs).map (·.withShiftFlag b) := by
  unfold State.memWrite
  cases boundsCheck a bs.length <;> rfl

theorem State.withShiftFlag_setVs (s : State) (b : Bool) (k : Nat) (bs : List Byte) :
    (s.withShiftFlag b).setVs k bs = (s.setVs k bs).withShiftFlag b := by
  induction bs generalizing s k with
  | nil => rfl
  | cons c bs ih => exact ih (s.setV (BitVec.ofNat 4 k) c) (k + 1)

/-- An instruction that is no shift answers the same whatever SHIFT_USES_VY is, but for the flag itself, which it hands on (R32). -/
theorem exec_withShiftFlag {i : Instr} (hi : ∀ x y, i ≠ .shr x y ∧ i ≠ .shl x y) (s : State) (b : Bool) :
    exec i (s.withShiftFlag b) = answerWithShiftFlag b (exec i s) := by
  cases i
  case shr x y => exact absurd rfl (hi x y).1
  case shl x y => exact absurd rfl (hi x y).2
  case ret =>
    simp only [exec, execRet, State.withShiftFlag_stack]
    cases s.stack <;> rfl
  case call =>
    simp only [exec, execCall, State.withShiftFlag_stack, apply_ite (answerWithShiftFlag b)]
    rfl
  case drw =>
    simp only [exec, execDrw, State.withShiftFlag_idxAddr, State.withShiftFlag_memRead]
    cases s.memRead s.idxAddr _ <;> rfl
  case ldB =>
    simp only [exec, execLdB, State.withShiftFlag_idxAddr, State.withShiftFlag_getV, State.withShiftFlag_memWrite]
    cases s.memWrite s.idxAddr _ <;> rfl
  case storeRegs =>
    simp only [exec, execStoreRegs, State.withShiftFlag_idxAddr, State.withShiftFlag_regBlock, State.withShiftFlag_memWrite]
    cases s.memWrite s.idxAddr _ <;> rfl
  case loadRegs =>
    simp only [exec, execLoadRegs, State.withShiftFlag_idxAddr, State.withShiftFlag_memRead, State.withShiftFlag_setVs]
    cases s.memRead s.idxAddr _ <;> rfl
  all_goals rfl

/-- Settles O53: both clauses are `exec_withShiftFlag`, read at a next state and at an error. -/
theorem onlyShiftsReadTheShiftFlag : Obligations.OnlyShiftsReadTheShiftFlag := by
  intro i s b hi
  exact ⟨fun t h => (exec_withShiftFlag hi s b).trans (congrArg (answerWithShiftFlag b) h),
    fun e h => (exec_withShiftFlag hi s b).trans (congrArg (answerWithShiftFlag b) h)⟩

end Sys2Proof.Machine
end

section
/-! PROOFS. The block store: when it goes on, the bytes it leaves, and that the next fetch reads them. -/

namespace Sys2Proof.Machine

theorem exec_storeRegs_of_fits {x : Nibble} {s : State} (hfit : s.idxAddr + x.toNat < 4096) :
    exec (.storeRegs x) s =
      .next ((s.setMem (s.mem.writeBytes s.idxAddr (s.regBlock x))).setIdx (s.idxAfterBlock x)).advance := by
  have hbound : s.idxAddr + (s.regBlock x).length ≤ 4096 := by rw [State.regBlock_length]; omega
  simp only [exec, execStoreRegs, State.memWrite_eq, if_pos (Or.inr hbound)]

theorem exec_storeRegs_readByte {x r : Nibble} {s t : State} (h : exec (.storeRegs x) s = .next t) (hr : r.toNat ≤ x.toNat) :
    t.readByte (s.idxAddr + r.toNat) = s.getV r := by
  have hin : s.idxAddr ≤ s.idxAddr + r.toNat ∧ s.idxAddr + r.toNat < s.idxAddr + (s.regBlock x).length := by
    rw [State.regBlock_length]; omega
  rw [State.readByte, exec_mem h, bytesStored, Memory.read_writeBytes, if_pos hin, Nat.add_sub_cancel_left,
    State.regBlock_getD s x _ hr, BitVec.ofNat_toNat, BitVec.setWidth_eq]

/-- Settles O35: the store's pc is the address of stored byte `k`, so the fetch joins stored bytes `k` and `k + 1`. -/
theorem storedBytesAreFetchedNext : Obligations.StoredBytesAreFetchedNext := by
  intro x k s hk hfit hnext
  obtain ⟨t, ht⟩ : ∃ t, exec (.storeRegs x) s = .next t := ⟨_, exec_storeRegs_of_fits hfit⟩
  have hpc : t.pc.toNat = s.idxAddr + k.toNat := (exec_pc ht).trans hnext
  have hsucc : (k + 1).toNat = k.toNat + 1 := by have hx := x.isLt; bv_omega
  have hhigh : t.readByte t.pc.toNat = s.getV k := by
    rw [hpc]; exact exec_storeRegs_readByte ht (by omega)
  have hlow : t.readByte (t.pc.toNat + 1) = s.getV (k + 1) := by
    rw [hpc, Nat.add_assoc, ← hsucc]; exact exec_storeRegs_readByte ht (by omega)
  have hfetch : t.fetch = .ok (bigEndian (s.getV k) (s.getV (k + 1))) := by
    rw [State.fetch_eq, if_pos (by omega), hhigh, hlow]
  exact ⟨t, _, ht, hfetch, bigEndian_toNat _ _⟩

end Sys2Proof.Machine
end

section
/-! PROOFS. The encoding (30_encoding.md R56 to R68): decoding and encoding are inverse, the words the decoder rejects and the rows of
the opcode map it accepts, and how a step fetches and runs what it decodes. -/

namespace Sys2Proof.Machine

/-! ## Decode of encode -/

theorem decodeWord_encode (i : Instr) : decodeWord (encode i) = .ok i := by
  cases i
  case cls | ret => rfl
  case jp | call | ldI | jpV0 => simp [encode, decodeWord]
  case seImm | sneImm | ldImm | addImm | rnd => simp [encode, decodeWord]
  case seReg | sneReg | drw => simp [encode, decodeWord]
  case ldReg | orReg | andReg | xorReg | addReg | sub | shr | subn | shl => simp [encode, decodeWord, decodeFamily8]
  case skp | sknp => simp [encode, decodeWord, decodeFamilyE]
  all_goals simp [encode, decodeWord, decodeFamilyF]

/-- Settles O2: an encoded word's fields are the instruction's operands and literals (R58, R62), and its two bytes make the word again. -/
theorem decodeOfEncodeIsTheInstruction : Obligations.DecodeOfEncodeIsTheInstruction := by
  intro i rest
  have hbytes : bigEndian ((encode i).extractLsb' 8 8) ((encode i).extractLsb' 0 8) = encode i := bigEndian_bytes _
  exact ⟨decodeWord_encode i, decodeBytes_cons _ _ rest i (by rw [hbytes, decodeWord_encode])⟩

/-- Settles O1: each literal word is evaluated by the decoder. -/
theorem decodesHandWrittenWords : Obligations.DecodesHandWrittenWords := by
  unfold Obligations.DecodesHandWrittenWords
  decide

/-! ## Encode of decode

A decoded word's family and literal fields are those of its row, so the encoder puts the word together again from its own fields. -/

theorem wordNNN_of_fieldN1 {op : Word} {p : Nibble} (hp : fieldN1 op = p) : wordNNN p (fieldNNN op) = op :=
  hp ▸ wordNNN_fields op

theorem wordXNN_of_fieldN1 {op : Word} {p : Nibble} (hp : fieldN1 op = p) : wordXNN p (fieldX op) (fieldNN op) = op :=
  hp ▸ wordXNN_fields op

theorem wordXNN_of_literals {op : Word} {p : Nibble} {nn : Byte} (hp : fieldN1 op = p) (hnn : fieldNN op = nn) :
    wordXNN p (fieldX op) nn = op :=
  hnn ▸ wordXNN_of_fieldN1 hp

theorem wordXYN_of_literals {op : Word} {p n : Nibble} (hp : fieldN1 op = p) (hn : fieldN op = n) :
    wordXYN p (fieldX op) (fieldY op) n = op :=
  hp ▸ hn ▸ wordXYN_fields op

theorem encode_of_decodeFamily0 {op : Word} {i : Instr} (hp : fieldN1 op = 0x0) (h : decodeFamily0 op = .ok i) : encode i = op := by
  unfold decodeFamily0 at h
  split at h <;> cases h
  all_goals next hnnn => rw [← wordNNN_of_fieldN1 hp, hnnn]; rfl

theorem encode_of_decodeFamily8 {op : Word} {i : Instr} (hp : fieldN1 op = 0x8) (h : decodeFamily8 op = .ok i) : encode i = op := by
  unfold decodeFamily8 at h
  split at h <;> cases h
  all_goals next hn => exact wordXYN_of_literals hp hn

theorem encode_of_decodeFamilyE {op : Word} {i : Instr} (hp : fieldN1 op = 0xE) (h : decodeFamilyE op = .ok i) : encode i = op := by
  unfold decodeFamilyE at h
  split at h <;> cases h
  all_goals next hnn => exact wordXNN_of_literals hp hnn

theorem encode_of_decodeFamilyF {op : Word} {i : Instr} (hp : fieldN1 op = 0xF) (h : decodeFamilyF op = .ok i) : encode i = op := by
  unfold decodeFamilyF at h
  split at h <;> cases h
  all_goals next hnn => exact wordXNN_of_literals hp hnn

/-- Settles O3: by the word's family, whose row puts the word together again from its fields (R58, R60, R63). -/
theorem encodeOfDecodeIsTheWord : Obligations.EncodeOfDecodeIsTheWord := by
  intro op i h
  unfold decodeWord at h
  split at h
  case h_1 hp => exact encode_of_decodeFamily0 hp h
  case h_2 hp | h_3 hp | h_11 hp | h_12 hp => cases h; exact wordNNN_of_fieldN1 hp
  case h_4 hp | h_5 hp | h_7 hp | h_8 hp | h_13 hp => cases h; exact wordXNN_of_fieldN1 hp
  case h_6 hp | h_10 hp => split at h <;> cases h; next hn => exact wordXYN_of_literals hp hn
  case h_9 hp => exact encode_of_decodeFamily8 hp h
  case h_14 hp => cases h; exact wordXYN_of_literals hp rfl
  case h_15 hp => exact encode_of_decodeFamilyE hp h
  case h_16 =>
    have hp : fieldN1 op = 0xF := by simp only [imp_false] at *; bv_omega
    exact encode_of_decodeFamilyF hp h

/-! ## The unimplemented space (R64) -/

theorem decodeFamily0_error_iff (op : Word) :
    decodeFamily0 op = .error (.unimplementedOpcode op) ↔ op.toNat % 4096 ≠ 0x0E0 ∧ op.toNat % 4096 ≠ 0x0EE := by
  rw [← fieldNNN_toNat, decodeFamily0]
  split
  case h_3 => simp_all [BitVec.toNat_eq]
  all_goals next h => simp [h]

theorem decodeFamily8_error_iff (op : Word) :
    decodeFamily8 op = .error (.unimplementedOpcode op) ↔ op.toNat % 16 ∈ [0x8, 0x9, 0xA, 0xB, 0xC, 0xD, 0xF] := by
  rw [← fieldN_toNat, decodeFamily8]
  split
  case h_10 =>
    simp only [imp_false, List.mem_cons, List.not_mem_nil, or_false, true_iff] at *
    bv_omega
  all_goals next h => simp [h]

theorem decodeFamilyE_error_iff (op : Word) :
    decodeFamilyE op = .error (.unimplementedOpcode op) ↔ op.toNat % 256 ∉ [0x9E, 0xA1] := by
  rw [← fieldNN_toNat, decodeFamilyE]
  split
  case h_3 => simp_all [BitVec.toNat_eq]
  all_goals next h => simp [h]

theorem decodeFamilyF_error_iff (op : Word) :
    decodeFamilyF op = .error (.unimplementedOpcode op) ↔
      op.toNat % 256 ∉ [0x07, 0x0A, 0x15, 0x18, 0x1E, 0x29, 0x33, 0x55, 0x65] := by
  rw [← fieldNN_toNat, decodeFamilyF]
  split
  case h_10 => simp_all [BitVec.toNat_eq]
  all_goals next h => simp [h]

/-- Settles O4: by the word's family (`fieldN1`), which rejects by the digits R64's table names; a family without a row in that table
accepts every word. -/
theorem decoderRejectsExactlyTheUnimplementedSpace : Obligations.DecoderRejectsExactlyTheUnimplementedSpace := by
  intro op
  unfold UnimplementedWord decodeWord
  have hfam := fieldN1_toNat op
  rw [← hfam]
  split
  case h_1 hp =>
    have hlow : op.toNat % 4096 = op.toNat := by rw [hp, BitVec.toNat_ofNat] at hfam; omega
    simp [hp, decodeFamily0_error_iff, hlow]
  case h_6 hp | h_10 hp => simp [hp, ← fieldN_toNat, BitVec.toNat_eq]
  case h_9 hp => simp [hp, decodeFamily8_error_iff]
  case h_15 hp => simp [hp, decodeFamilyE_error_iff]
  case h_16 =>
    have hp : fieldN1 op = 0xF := by simp only [imp_false] at *; bv_omega
    simp [hp, decodeFamilyF_error_iff]
  all_goals next hp => simp [hp]

/-! ## The opcode map -/

section
open Laws.EncodesItsRow

theorem encodesItsRow (i : Instr) : Laws.EncodesItsRow.Statement i := by
  cases i
  exacts [cls, ret, jp _, call _, seImm _ _, sneImm _ _, seReg _ _, ldImm _ _, addImm _ _, ldReg _ _, orReg _ _, andReg _ _,
    xorReg _ _, addReg _ _, sub _ _, shr _ _, subn _ _, shl _ _, sneReg _ _, ldI _, jpV0 _, rnd _ _, drw _ _ _, skp _, sknp _,
    ldVxDt _, ldVxK _, ldDtVx _, ldStVx _, addI _, ldF _, ldB _, storeRegs _, loadRegs _]

end

theorem fieldN1_and (a b : Word) : fieldN1 (a &&& b) = fieldN1 a &&& fieldN1 b := BitVec.extractLsb'_and

theorem fieldN_and (a b : Word) : fieldN (a &&& b) = fieldN a &&& fieldN b := BitVec.extractLsb'_and

theorem fieldNN_and (a b : Word) : fieldNN (a &&& b) = fieldNN a &&& fieldNN b := BitVec.extractLsb'_and

theorem family_of_mask_F000 {op w : Word} (h : op &&& 0xF000 = w) : op.toNat / 4096 = w.toNat / 4096 := by
  rw [← fieldN1_toNat, ← fieldN1_toNat, ← h, fieldN1_and]
  exact congrArg _ BitVec.and_allOnes.symm

theorem digits_of_mask_F00F {op w : Word} (h : op &&& 0xF00F = w) :
    op.toNat / 4096 = w.toNat / 4096 ∧ op.toNat % 16 = w.toNat % 16 := by
  rw [← fieldN1_toNat, ← fieldN1_toNat, ← fieldN_toNat, ← fieldN_toNat, ← h, fieldN1_and, fieldN_and]
  exact ⟨congrArg _ BitVec.and_allOnes.symm, congrArg _ BitVec.and_allOnes.symm⟩

theorem digits_of_mask_F0FF {op w : Word} (h : op &&& 0xF0FF = w) :
    op.toNat / 4096 = w.toNat / 4096 ∧ op.toNat % 256 = w.toNat % 256 := by
  rw [← fieldN1_toNat, ← fieldN1_toNat, ← fieldNN_toNat, ← fieldNN_toNat, ← h, fieldN1_and, fieldNN_and]
  exact ⟨congrArg _ BitVec.and_allOnes.symm, congrArg _ BitVec.and_allOnes.symm⟩

/-- A row's mask holds every digit by which R64's table tells the words of the row's family apart. -/
theorem opcodeMap_masks : ∀ r ∈ opcodeMap,
    r.mask = 0xFFFF ∨
    (r.mask = 0xF000 ∧ r.pattern.toNat / 4096 ∉ [0x0, 0x5, 0x8, 0x9, 0xE, 0xF]) ∨
    (r.mask = 0xF00F ∧ r.pattern.toNat / 4096 ∈ [0x5, 0x8, 0x9]) ∨
    (r.mask = 0xF0FF ∧ r.pattern.toNat / 4096 ∈ [0xE, 0xF]) := by
  decide

theorem opcodeMap_patterns_decode : ∀ r ∈ opcodeMap, decodeWord r.pattern ≠ .error (.unimplementedOpcode r.pattern) := by
  decide

/-- No two rows of the opcode map agree under both their masks (R61). -/
theorem opcodeMap_exclusive :
    ∀ r ∈ opcodeMap, ∀ q ∈ opcodeMap, r.pattern &&& q.mask = q.pattern &&& r.mask → r = q := by
  decide

theorem row_of_two_matches {op : Word} {r q : OpcodeRow} (hr : r ∈ opcodeMap) (hq : q ∈ opcodeMap)
    (hop : op &&& r.mask = r.pattern) (hop' : op &&& q.mask = q.pattern) : r = q :=
  opcodeMap_exclusive r hr q hq <| by rw [← hop, ← hop', BitVec.and_assoc, BitVec.and_assoc, BitVec.and_comm r.mask]

theorem unimplementedWord_family {w : Nat} (h : UnimplementedWord w) : w / 4096 ∈ [0x0, 0x5, 0x8, 0x9, 0xE, 0xF] := by
  rcases h with ⟨hp, -⟩ | ⟨hp, -⟩ | ⟨hp, -⟩ | ⟨hp, -⟩ | ⟨hp, -⟩ | ⟨hp, -⟩ <;> simp [hp]

/-- A word that matches a row is outside R64's table, as the row's pattern is. -/
theorem not_unimplementedWord_of_row {op : Word} {r : OpcodeRow} (hr : r ∈ opcodeMap) (h : op &&& r.mask = r.pattern) :
    ¬ UnimplementedWord op.toNat := by
  have hpattern : ¬ UnimplementedWord r.pattern.toNat :=
    fun hu => opcodeMap_patterns_decode r hr ((decoderRejectsExactlyTheUnimplementedSpace _).2 hu)
  intro hu
  rcases opcodeMap_masks r hr with hm | ⟨hm, hfam⟩ | ⟨hm, hfam⟩ | ⟨hm, hfam⟩ <;> rw [hm] at h
  · have hop : op = r.pattern := BitVec.and_allOnes.symm.trans h
    exact hpattern (hop ▸ hu)
  · exact hfam (family_of_mask_F000 h ▸ unimplementedWord_family hu)
  · obtain ⟨hd, hn⟩ := digits_of_mask_F00F h
    simp only [List.mem_cons, List.not_mem_nil, or_false] at hfam
    rcases hfam with hf | hf | hf <;> exact hpattern (by simpa [UnimplementedWord, hd, hn, hf] using hu)
  · obtain ⟨hd, hnn⟩ := digits_of_mask_F0FF h
    simp only [List.mem_cons, List.not_mem_nil, or_false] at hfam
    rcases hfam with hf | hf <;> exact hpattern (by simpa [UnimplementedWord, hd, hnn, hf] using hu)

theorem decodeWord_error_eq {op : Word} {e : DecodeError} (h : decodeWord op = .error e) : e = .unimplementedOpcode op := by
  unfold decodeWord decodeFamily0 decodeFamily8 decodeFamilyE decodeFamilyF at h
  repeat' split at h
  all_goals cases h
  all_goals rfl

/-- Settles O5: two rows that one word matches agree under both masks, which only equal rows do; a decoded word is the encoding of an
instruction, which matches that instruction's row, and a word that matches a row is outside R64's table, so it is decoded. -/
theorem decoderAgreesWithTheExclusiveOpcodeMap : Obligations.DecoderAgreesWithTheExclusiveOpcodeMap := by
  refine ⟨fun op r q hr hq hop hop' => row_of_two_matches hr hq (beq_iff_eq.1 hop) (beq_iff_eq.1 hop'), fun op => ?_⟩
  rw [wordWellFormed, List.any_eq_true]
  constructor
  · rintro ⟨i, hi⟩
    obtain ⟨r, hr, -, hmatch⟩ := encodesItsRow i
    rw [encodeOfDecodeIsTheWord op i hi] at hmatch
    exact ⟨r, hr, beq_iff_eq.2 hmatch⟩
  · rintro ⟨r, hr, hmatch⟩
    cases hd : decodeWord op with
    | ok i => exact ⟨i, rfl⟩
    | error e =>
      rw [decodeWord_error_eq hd, decoderRejectsExactlyTheUnimplementedSpace] at hd
      exact absurd hd (not_unimplementedWord_of_row hr (beq_iff_eq.1 hmatch))

/-! ## Fetch and step -/

/-- Settles O6: by `State.fetch_eq`, whose word is the two bytes big-endian and whose recorded address is the lowest one out. -/
theorem fetchIsBigEndianAndChecked : Obligations.FetchIsBigEndianAndChecked := by
  intro s
  rw [State.fetch_eq]
  refine ⟨fun h => ⟨_, if_pos h, bigEndian_toNat _ _⟩, fun h => ?_, fun h => ?_⟩
  · rw [if_neg (by omega), Nat.max_eq_left h]
  · rw [if_neg (by omega), h]; rfl

/-- A fetch in bounds answers the opcode at the pc (R57). -/
theorem State.fetch_of_fetchReady {s : State} (h : FetchReady s) : s.fetch = .ok (BitVec.ofNat 16 (opcodeAtPc s)) := by
  obtain ⟨-, hpc⟩ := h
  have hf : s.fetch = .ok (bigEndian (s.readByte s.pc.toNat) (s.readByte (s.pc.toNat + 1))) := by
    rw [State.fetch_eq, if_pos (by omega)]
  rw [hf, State.fetch_ok_opcodeAtPc hf]

/-- Settles O7: with no key awaited the step fetches the opcode at the pc, which decodes to the instruction it runs (R68). -/
theorem stepRunsTheDecodedInstruction : Obligations.StepRunsTheDecodedInstruction := by
  intro s i hready hinstr
  have hrunning : s.blk = .running := hready.1
  have hdecode : decodeWord (BitVec.ofNat 16 (opcodeAtPc s)) = .ok i := hinstr
  simp only [step, hrunning, State.fetch_of_fetchReady hready, hdecode]

end Sys2Proof.Machine
end

section
/-! PROOFS. The control-transfer instructions: the frame of a write to the pc and to the stack, what CALL and RET answer on a stack with
room or an entry and on one without, the two skip conditions, and the next-PC law. -/

namespace Sys2Proof.Machine

/-! ## The frame of a write to the pc and to the stack -/

theorem SameOutside.refl (regs : List Nibble) (parts : List StatePart) (s : State) : SameOutside regs parts s s :=
  ⟨fun _ _ => rfl, fun p _ => by cases p <;> simp [StatePart.same]⟩

/-- The pc is no part of a frame, so a write to it leaves every frame as it was. -/
theorem SameOutside.setPc {regs : List Nibble} {parts : List StatePart} {s t : State} (h : SameOutside regs parts s t) (a : Word) :
    SameOutside regs parts s (t.setPc a) :=
  ⟨h.1, fun p hp => by cases p <;> exact h.2 _ hp⟩

theorem SameOutside.setStack {regs : List Nibble} {parts : List StatePart} {s t : State} (h : SameOutside regs parts s t)
    (hstack : .stack ∈ parts) (l : List Word) : SameOutside regs parts s (t.setStack l) := by
  refine ⟨h.1, fun p hp => ?_⟩
  cases p
  case stack => exact absurd hstack hp
  all_goals exact h.2 _ hp

theorem sameOutside_setPc (s : State) (a : Word) : SameOutside [] [] s (s.setPc a) := (SameOutside.refl _ _ s).setPc a

theorem sameOutside_setStack_setPc (s : State) (l : List Word) (a : Word) : SameOutside [] [.stack] s ((s.setStack l).setPc a) :=
  ((SameOutside.refl _ _ s).setStack (List.mem_singleton_self _) l).setPc a

/-! ## Calls and returns -/

theorem exec_call_of_room {s : State} (nnn : Addr12) (h : s.stack.length < 16) :
    exec (.call nnn) s = .next ((s.setStack ((s.pc + 2) :: s.stack)).setPc (target12 nnn)) := if_pos h

theorem exec_call_of_full {s : State} (nnn : Addr12) (h : 16 ≤ s.stack.length) : exec (.call nnn) s = .fault .stackOverflow :=
  if_neg (Nat.not_lt.2 h)

theorem exec_ret_of_cons {s : State} {a : Word} {rest : List Word} (h : s.stack = a :: rest) :
    exec .ret s = .next ((s.setStack rest).setPc a) := by
  simp only [exec, execRet, h]

theorem exec_ret_of_nil {s : State} (h : s.stack = []) : exec .ret s = .fault .stackUnderflow := by
  simp only [exec, execRet, h, raise]

/-- Settles O15: with room CALL pushes `PC + 2` modulo 65536 and writes nothing beside the pc and the stack (D5). -/
theorem callPushesTheNextAddressOrOverflows : Obligations.CallPushesTheNextAddressOrOverflows := by
  intro nnn s
  refine ⟨fun hroom => ⟨_, s.pc + 2, exec_call_of_room nnn hroom, rfl, BitVec.toNat_add s.pc 2, target12_toNat nnn, ?_⟩,
    exec_call_of_full nnn⟩
  exact sameOutside_setStack_setPc _ _ _

/-- Settles O16: RET splits on the stack, whose top becomes the pc. -/
theorem returnPopsTheTopOrUnderflows : Obligations.ReturnPopsTheTopOrUnderflows := by
  intro s
  refine ⟨fun a rest hs => ⟨_, exec_ret_of_cons hs, rfl, rfl, ?_⟩, exec_ret_of_nil⟩
  exact sameOutside_setStack_setPc _ _ _

/-- Settles O17: the top that RET pops is the `PC + 2` that CALL pushed, and below it is the stack before the CALL (D5). -/
theorem returnUndoesCall : Obligations.ReturnUndoesCall := by
  intro nnn s hroom
  refine ⟨_, exec_call_of_room nnn hroom, fun u hu => ?_⟩
  have hpushed : u.stack = (s.pc + 2) :: s.stack := hu
  exact ⟨_, exec_ret_of_cons hpushed, BitVec.toNat_add s.pc 2, rfl⟩

/-! ## Jumps -/

/-- Settles O14: the target is the operand widened to 16 bits, and only the pc is written. -/
theorem jumpSetsPcToItsOperand : Obligations.JumpSetsPcToItsOperand :=
  fun nnn s => ⟨_, rfl, target12_toNat nnn, sameOutside_setPc s _⟩

/-- Settles O20: a 12-bit operand and a byte sum to at most 0xFFF + 0xFF, which 16 bits hold. -/
theorem jumpWithOffsetAddsV0 : Obligations.JumpWithOffsetAddsV0 := by
  intro nnn s
  have hsum : (s.targetV0 nnn).toNat = nnn.toNat + (s.getV 0).toNat := s.targetV0_toNat nnn
  have hbound : (s.targetV0 nnn).toNat ≤ 0x10FE := by
    have hn := nnn.isLt
    have hv := (s.getV 0).isLt
    omega
  exact ⟨_, rfl, hsum, hbound, sameOutside_setPc s _⟩

/-! ## Skips -/

/-- A skip moves the pc on by 4 or 2 and writes nothing else (R70). -/
theorem skipIf_moves_pc_only {s : State} {c : Bool} {n : Nat} (hn : (if c then 4 else 2) = n) :
    PcMovesBy n s (s.skipIf c) ∧ SameOutside [] [] s (s.skipIf c) :=
  ⟨hn ▸ s.skipIf_pc_toNat c, sameOutside_setPc s _⟩

theorem skips_on_equal {i : Instr} {s : State} {a b : Byte} (h : exec i s = .next (s.skipIf (a == b))) :
    ∃ t, exec i s = .next t ∧ PcMovesBy (if a.toNat = b.toNat then 4 else 2) s t ∧ SameOutside [] [] s t :=
  ⟨_, h, skipIf_moves_pc_only (by simp only [beq_iff_eq, BitVec.toNat_inj])⟩

theorem skips_on_unequal {i : Instr} {s : State} {a b : Byte} (h : exec i s = .next (s.skipIf (a != b))) :
    ∃ t, exec i s = .next t ∧ PcMovesBy (if a.toNat = b.toNat then 2 else 4) s t ∧ SameOutside [] [] s t :=
  ⟨_, h, skipIf_moves_pc_only (by simp only [bne_iff_ne, ne_eq, ite_not, BitVec.toNat_inj])⟩

/-- Settles O18: the second byte compared is the immediate. -/
theorem skipsOnAnImmediate : Obligations.SkipsOnAnImmediate := fun _ _ _ => ⟨skips_on_equal rfl, skips_on_unequal rfl⟩

/-- Settles O19: the second byte compared is the other register. -/
theorem skipsOnTwoRegisters : Obligations.SkipsOnTwoRegisters := fun _ _ _ => ⟨skips_on_equal rfl, skips_on_unequal rfl⟩

/-! ## The next-PC law -/

/-- A step that raises leaves the state and answers the error (R18, R125, D6). -/
theorem State.transact_step_of_fault {s : State} {e : Fault} (h : step s = .fault e) : s.transact .step = (s, .error e) := by
  simp only [State.transact, h]

/-- Settles O21: by `exec_pc`, the pc of every instruction's class; a step that raises leaves the whole state. -/
theorem nextPcFollowsTheClassOfTheInstruction : Obligations.NextPcFollowsTheClassOfTheInstruction := by
  refine ⟨fun i s t hnext => exec_pc hnext, fun s e hfault => ?_⟩
  rw [State.transact_step_of_fault hfault]

end Sys2Proof.Machine
end

section
/-! PROOFS. The register and ALU instructions: what a write to `V[X]`, with or without the flag after it, reads back and leaves unchanged,
the results and flags as integers, and the random byte. -/

namespace Sys2Proof.Machine

/-! ## The frame of a write to a register and to the ports -/

theorem SameOutside.setV {regs : List Nibble} {parts : List StatePart} {s t : State} (h : SameOutside regs parts s t) {x : Nibble}
    (hx : x ∈ regs) (b : Byte) : SameOutside regs parts s (t.setV x b) := by
  refine ⟨fun r hr => ?_, fun p hp => by cases p <;> exact h.2 _ hp⟩
  have hne : x ≠ r := fun hxr => hr (hxr ▸ hx)
  rw [State.getV_setV_ne _ _ _ _ hne, h.1 r hr]

theorem SameOutside.setPorts {regs : List Nibble} {parts : List StatePart} {s t : State} (h : SameOutside regs parts s t)
    (hports : .ports ∈ parts) (p : Ports) : SameOutside regs parts s (t.setPorts p) := by
  refine ⟨h.1, fun q hq => ?_⟩
  cases q
  case ports => exact absurd hports hq
  all_goals exact h.2 _ hq

/-! ## A result written to `V[X]`, alone or before the flag -/

theorem pcMovesBy_advance {s t : State} (h : t.pc = s.pc) : PcMovesBy 2 s t.advance := by
  rw [PcMovesBy, State.advance_pc, h]
  exact BitVec.toNat_add s.pc 2

theorem State.setV_advance_getV (s : State) (x : Nibble) (b : Byte) : (s.setV x b).advance.getV x = b := s.getV_setV_self x b

/-- An instruction that writes one register moves the pc on by 2 and leaves the rest. -/
theorem setV_advance_frame (s : State) (x : Nibble) (b : Byte) :
    PcMovesBy 2 s (s.setV x b).advance ∧ SameOutside [x] [] s (s.setV x b).advance :=
  ⟨pcMovesBy_advance rfl, ((SameOutside.refl _ _ s).setV (List.mem_singleton_self x) b).setPc _⟩

/-- An instruction with a flag: `V[X]` holds the result unless it is `VF`, `VF` holds the flag, and the rest is left (R83, D9). -/
theorem setResultAndFlag_advance {s : State} {x : Nibble} {r : Byte} {c : Bool} {result flag : Nat}
    (hresult : r.toNat = result) (hflag : (flagByte c).toNat = flag) :
    (x ≠ 15 → ((s.setResultAndFlag x r c).advance.getV x).toNat = result) ∧
      ((s.setResultAndFlag x r c).advance.getV 15).toNat = flag ∧
      PcMovesBy 2 s (s.setResultAndFlag x r c).advance ∧ SameOutside [x, 15] [] s (s.setResultAndFlag x r c).advance := by
  have hframe : SameOutside [x, 15] [] s (s.setResultAndFlag x r c) :=
    ((SameOutside.refl _ _ s).setV (List.mem_cons_self ..) r).setV (List.mem_cons_of_mem _ (List.mem_singleton_self _)) _
  refine ⟨fun hx => ?_, ?_, pcMovesBy_advance rfl, hframe.setPc _⟩
  · rw [State.advance_getV, State.setResultAndFlag_getV, if_neg (show regF ≠ x from hx.symm), if_pos rfl, hresult]
  · rw [State.advance_getV, State.setResultAndFlag_getV, if_pos (show regF = 15 from rfl), hflag]

/-! ## Results and flags as integers -/

theorem byte_sub_toNat (a b : Byte) : (a - b).toNat = (a.toNat + 256 - b.toNat) % 256 := by
  have hb := b.isLt
  rw [BitVec.toNat_sub]
  omega

theorem byte_shiftRight_one_toNat (a : Byte) : (a >>> 1).toNat = a.toNat / 2 :=
  (BitVec.toNat_ushiftRight a 1).trans (Nat.shiftRight_eq_div_pow _ 1)

theorem byte_shiftLeft_one_toNat (a : Byte) : (a <<< 1).toNat = a.toNat * 2 % 256 := by
  rw [BitVec.toNat_shiftLeft, Nat.shiftLeft_eq]

theorem carryOut_toNat (a b : Byte) : (flagByte (carryOut a b)).toNat = if a.toNat + b.toNat > 255 then 1 else 0 := by
  simp only [flagByte_toNat, carryOut_iff]

theorem noBorrow_toNat (a b : Byte) : (flagByte (noBorrow a b)).toNat = if a.toNat ≥ b.toNat then 1 else 0 := by
  simp only [flagByte_toNat, noBorrow_iff]

/-- The shift source is the register SHIFT_USES_VY selects (R92, R94). -/
theorem State.shiftSource_eq_getV (s : State) (x y : Nibble) : s.shiftSource x y = s.getV (if s.shiftUsesVy = true then y else x) :=
  (apply_ite s.getV _ _ _).symm

/-! ## Arithmetic with a flag -/

/-- Settles O24: a byte sum is the sum modulo 256, and the carry says whether it was reduced. -/
theorem addRegisterGivesSumAndCarry : Obligations.AddRegisterGivesSumAndCarry :=
  fun _ _ _ => ⟨_, rfl, setResultAndFlag_advance (BitVec.toNat_add _ _) (carryOut_toNat _ _)⟩

/-- Settles O25: the difference of bytes is the one of `byte_sub_toNat`, with `V[X]` the minuend. -/
theorem subtractGivesDifferenceAndNoBorrow : Obligations.SubtractGivesDifferenceAndNoBorrow :=
  fun _ _ _ => ⟨_, rfl, setResultAndFlag_advance (byte_sub_toNat _ _) (noBorrow_toNat _ _)⟩

/-- Settles O26: as SUB, with `V[Y]` the minuend. -/
theorem subtractReverseGivesDifferenceAndNoBorrow : Obligations.SubtractReverseGivesDifferenceAndNoBorrow :=
  fun _ _ _ => ⟨_, rfl, setResultAndFlag_advance (byte_sub_toNat _ _) (noBorrow_toNat _ _)⟩

/-- Settles O27: result and flag are both of the source before the two writes, its half and its bit 0. -/
theorem shiftRightHalvesTheSource : Obligations.ShiftRightHalvesTheSource :=
  fun x y s => ⟨_, s.shiftSource x y, rfl, s.shiftSource_eq_getV x y,
    setResultAndFlag_advance (byte_shiftRight_one_toNat _) (shiftedOutRight_toNat _)⟩

/-- Settles O28: as SHR, with the double of the source and its bit 7. -/
theorem shiftLeftDoublesTheSource : Obligations.ShiftLeftDoublesTheSource :=
  fun x y s => ⟨_, s.shiftSource x y, rfl, s.shiftSource_eq_getV x y,
    setResultAndFlag_advance (byte_shiftLeft_one_toNat _) (shiftedOutLeft_toNat _)⟩

/-! ## Loads, moves and bitwise operations -/

/-- Settles O22: each is one write to `V[X]`, of the immediate or of the byte sum with it. -/
theorem immediateLoadAndAdd : Obligations.ImmediateLoadAndAdd := by
  intro x nn s
  refine ⟨⟨_, rfl, s.setV_advance_getV x nn, setV_advance_frame s x _⟩, ⟨_, rfl, ?_, setV_advance_frame s x _⟩⟩
  rw [State.setV_advance_getV]
  exact BitVec.toNat_add _ _

/-- Settles O23: each is one write to `V[X]`, of the other register or of the two combined bit by bit. -/
theorem moveAndBitwiseOperations : Obligations.MoveAndBitwiseOperations := by
  intro x y s
  refine ⟨⟨_, rfl, s.setV_advance_getV x _, setV_advance_frame s x _⟩, ⟨_, rfl, fun k => ?or, setV_advance_frame s x _⟩,
    ⟨_, rfl, fun k => ?and, setV_advance_frame s x _⟩, ⟨_, rfl, fun k => ?xor, setV_advance_frame s x _⟩⟩
  case or => rw [State.setV_advance_getV, BitVec.getLsbD_or]
  case and => rw [State.setV_advance_getV, BitVec.getLsbD_and]
  case xor => rw [State.setV_advance_getV, BitVec.getLsbD_xor]

/-! ## The random byte -/

/-- A queued answer is the one taken, and leaves the queue (R135; log 2). -/
theorem State.rng_of_cons {s : State} {r : Byte} {rest : List Byte} (h : s.ports.rng = r :: rest) :
    s.rngAnswer = r ∧ s.afterRng.ports.rng = rest := by
  simp only [State.rngAnswer, State.afterRng, State.setPorts_ports, h, List.tail_cons, and_self]

/-- Settles O29: the one call changes only the ports, and the one write is of the answer under the mask. -/
theorem randomIsTheAnswerUnderTheMask : Obligations.RandomIsTheAnswerUnderTheMask := by
  intro x nn s
  have hframe : SameOutside [x] [.ports] s (s.afterRng.setV x (s.rngAnswer &&& nn)) :=
    ((SameOutside.refl _ _ s).setPorts (List.mem_singleton_self _) _).setV (List.mem_singleton_self x) _
  refine ⟨_, rfl, fun k => ?bits, fun r rest hqueue => ?queued, rfl, rfl, rfl, pcMovesBy_advance rfl, hframe.setPc _⟩
  case bits => rw [State.setV_advance_getV, BitVec.getLsbD_and]
  case queued =>
    obtain ⟨hanswer, hrest⟩ := State.rng_of_cons hqueue
    rw [State.setV_advance_getV, hanswer]
    exact ⟨rfl, hrest⟩

end Sys2Proof.Machine
end

section
/-! PROOFS. The index register and memory instructions: the frame of a write to `I` and to memory, what a passed and a refused access
makes of the three memory instructions, and the bytes and registers they leave. -/

namespace Sys2Proof.Machine

/-! ## The frame of a write to `I` and to memory -/

theorem SameOutside.setIdx {regs : List Nibble} {parts : List StatePart} {s t : State} (h : SameOutside regs parts s t)
    (hidx : .idx ∈ parts) (a : Word) : SameOutside regs parts s (t.setIdx a) := by
  refine ⟨h.1, fun p hp => ?_⟩
  cases p
  case idx => exact absurd hidx hp
  all_goals exact h.2 _ hp

theorem SameOutside.setMem {regs : List Nibble} {parts : List StatePart} {s t : State} (h : SameOutside regs parts s t)
    (hmem : .mem ∈ parts) (m : Memory) : SameOutside regs parts s (t.setMem m) := by
  refine ⟨h.1, fun p hp => ?_⟩
  cases p
  case mem => exact absurd hmem hp
  all_goals exact h.2 _ hp

/-- A block load into the registers writes no part beside them (R102). -/
theorem StatePart.same_setVs (p : StatePart) (s : State) (k : Nat) (bs : List Byte) : p.same s (s.setVs k bs) := by
  cases p <;> simp [StatePart.same]

/-! ## Loads of the index register -/

/-- An instruction that writes `I` moves the pc on by 2 and leaves the rest. -/
theorem setIdx_advance_frame (s : State) (a : Word) :
    PcMovesBy 2 s (s.setIdx a).advance ∧ SameOutside [] [.idx] s (s.setIdx a).advance :=
  ⟨pcMovesBy_advance rfl, ((SameOutside.refl _ _ s).setIdx (List.mem_singleton_self _) a).setPc _⟩

/-- Settles O30: each is one write to `I`, of the operand, of the sum at 16 bits, or of the byte times 5, which 16 bits hold. -/
theorem indexLoadAddAndGlyph : Obligations.IndexLoadAddAndGlyph :=
  ⟨fun nnn s => ⟨_, rfl, target12_toNat nnn, setIdx_advance_frame s _⟩,
    fun x s => ⟨⟨_, rfl, s.idxPlus_toNat x, setIdx_advance_frame s _⟩, _, rfl, s.glyphAddr_toNat x, setIdx_advance_frame s _⟩⟩

/-! ## When an access through `I` goes on, and what it raises when it does not -/

/-- A read that ends past memory raises; the recorded address is its first where that is out, else the end of memory (R40, D7). -/
theorem State.memRead_of_out {s : State} {addr n : Nat} (hout : 4096 ≤ addr + n) :
    s.memRead addr (n + 1) = .error (.outOfBounds (if 4096 ≤ addr then addr else 4096)) := by
  rw [State.memRead_eq, if_neg (by omega), Nat.max_comm, Nat.max_def]

/-- As `memRead_of_out`, for a write of `n + 1` bytes. -/
theorem State.memWrite_of_out {s : State} {addr n : Nat} {bs : List Byte} (hlen : bs.length = n + 1) (hout : 4096 ≤ addr + n) :
    s.memWrite addr bs = .error (.outOfBounds (if 4096 ≤ addr then addr else 4096)) := by
  rw [State.memWrite_eq, if_neg (by omega), Nat.max_comm, Nat.max_def]

theorem exec_ldB_of_fits {x : Nibble} {s : State} (hfit : s.idxAddr + 2 < 4096) :
    exec (.ldB x) s = .next (s.setMem (s.mem.writeBytes s.idxAddr (bcdDigits (s.getV x)))).advance := by
  have hbound : s.idxAddr + (bcdDigits (s.getV x)).length ≤ 4096 := by rw [bcdDigits_length]; omega
  simp only [exec, execLdB, State.memWrite_eq, if_pos (Or.inr hbound)]

theorem exec_ldB_of_out {x : Nibble} {s : State} (hout : 4096 ≤ s.idxAddr + 2) :
    exec (.ldB x) s = .fault (.outOfBounds (if 4096 ≤ s.idxAddr then s.idxAddr else 4096)) := by
  simp only [exec, execLdB, State.memWrite_of_out (bcdDigits_length _) hout, raise]

theorem exec_storeRegs_of_out {x : Nibble} {s : State} (hout : 4096 ≤ s.idxAddr + x.toNat) :
    exec (.storeRegs x) s = .fault (.outOfBounds (if 4096 ≤ s.idxAddr then s.idxAddr else 4096)) := by
  simp only [exec, execStoreRegs, State.memWrite_of_out (s.regBlock_length x) hout, raise]

theorem exec_loadRegs_of_fits {x : Nibble} {s : State} (hfit : s.idxAddr + x.toNat < 4096) :
    exec (.loadRegs x) s =
      .next ((s.setVs 0 (s.mem.readBytes s.idxAddr (blockLength x))).setIdx (s.idxAfterBlock x)).advance := by
  have hbound : s.idxAddr + blockLength x ≤ 4096 := by rw [blockLength]; omega
  simp only [exec, execLoadRegs, State.memRead_eq, if_pos (Or.inr hbound)]

theorem exec_loadRegs_of_out {x : Nibble} {s : State} (hout : 4096 ≤ s.idxAddr + x.toNat) :
    exec (.loadRegs x) s = .fault (.outOfBounds (if 4096 ≤ s.idxAddr then s.idxAddr else 4096)) := by
  simp only [exec, execLoadRegs, blockLength, State.memRead_of_out hout, raise]

/-! ## The bytes an instruction leaves in memory -/

theorem exec_readByte_stored {i : Instr} {s t : State} {k : Nat} (h : exec i s = .next t) (hk : k < (bytesStored i s).length) :
    t.readByte (s.idxAddr + k) = (bytesStored i s).getD k 0 := by
  rw [State.readByte, exec_mem h, Memory.read_writeBytes, if_pos (by omega), Nat.add_sub_cancel_left]

theorem exec_sameBytesOutside {i : Instr} {s t : State} (h : exec i s = .next t) :
    SameBytesOutside s.idxAddr (bytesStored i s).length s t :=
  fun _ hk => Classical.byContradiction fun hne => absurd (exec_changed_byte h hne) (by omega)

/-! ## The decimal store -/

/-- The three digits of a byte, hundreds first, as integers (R100). -/
theorem bcdDigits_toNat (b : Byte) :
    ((bcdDigits b).getD 0 0).toNat = b.toNat / 100 ∧ ((bcdDigits b).getD 1 0).toNat = b.toNat / 10 % 10 ∧
      ((bcdDigits b).getD 2 0).toNat = b.toNat % 10 := by
  have hb := b.isLt
  refine ⟨(BitVec.toNat_ofNat ..).trans ?_, (BitVec.toNat_ofNat ..).trans ?_, (BitVec.toNat_ofNat ..).trans ?_⟩ <;> omega

theorem exec_ldB_readByte_toNat {x : Nibble} {s t : State} (h : exec (.ldB x) s = .next t) {k : Nat} (hk : k < 3) :
    (t.readByte (s.idxAddr + k)).toNat = ((bcdDigits (s.getV x)).getD k 0).toNat :=
  congrArg BitVec.toNat (exec_readByte_stored h hk)

/-- Settles O31: the three bytes stored are the digits, in the order of their addresses (D7). -/
theorem decimalStoreWritesThreeDigits : Obligations.DecimalStoreWritesThreeDigits := by
  intro x s
  refine ⟨fun hfit => ?_, exec_ldB_of_out⟩
  have hexec := exec_ldB_of_fits (x := x) hfit
  obtain ⟨hhundreds, htens, hunits⟩ := bcdDigits_toNat (s.getV x)
  refine ⟨_, hexec, (exec_ldB_readByte_toNat hexec (by decide)).trans hhundreds,
    (exec_ldB_readByte_toNat hexec (by decide)).trans htens, (exec_ldB_readByte_toNat hexec (by decide)).trans hunits,
    exec_sameBytesOutside hexec, pcMovesBy_advance rfl, ?_⟩
  exact ((SameOutside.refl _ _ s).setMem (List.mem_singleton_self _) _).setPc _

/-! ## The block store and the block load -/

/-- Settles O32: the bytes stored are the registers in order; `I` and memory are written, and the pc (D7). -/
theorem blockStoreWritesTheRegisters : Obligations.BlockStoreWritesTheRegisters := by
  intro x s
  refine ⟨fun hfit => ?_, exec_storeRegs_of_out⟩
  have hexec := exec_storeRegs_of_fits hfit
  have hlen : (bytesStored (.storeRegs x) s).length = x.toNat + 1 := s.regBlock_length x
  refine ⟨_, hexec, fun r hr => exec_storeRegs_readByte hexec hr, hlen ▸ exec_sameBytesOutside hexec, s.idxAfterBlock_toNat x,
    pcMovesBy_advance rfl, ?_⟩
  exact (((SameOutside.refl _ _ s).setMem (List.mem_cons_self ..) _).setIdx
    (List.mem_cons_of_mem _ (List.mem_singleton_self _)) _).setPc _

/-- After a block load the registers up to `V[X]` hold the bytes at `I` upwards, the others what they held (R102). -/
theorem exec_loadRegs_getV {x : Nibble} {s t : State} (h : exec (.loadRegs x) s = .next t) (r : Nibble) :
    t.getV r = if r.toNat ≤ x.toNat then s.readByte (s.idxAddr + r.toNat) else s.getV r := by
  have hx := x.isLt
  obtain ⟨bs, hread, rfl⟩ := execLoadRegs_next h
  obtain ⟨-, rfl⟩ := State.memRead_ok hread
  rw [State.advance_getV, State.setIdx_getV, State.setVs_getV _ _ _ _ (by rw [Memory.readBytes_length, blockLength]; omega),
    Memory.readBytes_length, blockLength]
  by_cases hr : r.toNat ≤ x.toNat
  · rw [if_pos (by omega), if_pos hr, Memory.readBytes_getD _ _ _ _ (by omega), Nat.sub_zero, State.readByte]
  · rw [if_neg (by omega), if_neg hr]

/-- Settles O33: the load writes registers, `I` and the pc, so every part beside `I` is as the register writes left it (D7). -/
theorem blockLoadReadsTheRegisters : Obligations.BlockLoadReadsTheRegisters := by
  intro x s
  refine ⟨fun hfit => ?_, exec_loadRegs_of_out⟩
  have hexec := exec_loadRegs_of_fits hfit
  refine ⟨_, hexec, fun r hr => ?loaded, fun r hr => ?kept, s.idxAfterBlock_toNat x, pcMovesBy_advance (s.setVs_pc 0 _),
    fun p hp => ?parts⟩
  case loaded => rw [exec_loadRegs_getV hexec, if_pos hr]
  case kept => rw [exec_loadRegs_getV hexec, if_neg (Nat.not_le.2 hr)]
  case parts =>
    have hregs := p.same_setVs s 0 (s.mem.readBytes s.idxAddr (blockLength x))
    cases p
    case idx => exact absurd rfl hp
    all_goals exact hregs

/-- Settles O34: the load reads at the same addresses the bytes the store left, and both add the same to the same `I`. -/
theorem blockLoadRestoresWhatBlockStoreSaved : Obligations.BlockLoadRestoresWhatBlockStoreSaved := by
  intro x s hfit
  have hstore := exec_storeRegs_of_fits hfit
  refine ⟨_, hstore, fun u hmem hidx => ?_⟩
  have haddr : u.idxAddr = s.idxAddr := congrArg BitVec.toNat hidx
  have hload := exec_loadRegs_of_fits (haddr ▸ hfit : u.idxAddr + x.toNat < 4096)
  refine ⟨_, hload, ?index, fun r hr => ?restored⟩
  case index => exact congrArg (· + BitVec.ofNat 16 (blockLength x)) hidx
  case restored =>
    rw [exec_loadRegs_getV hload, if_pos hr, haddr, State.readByte, hmem]
    exact exec_storeRegs_readByte hstore hr

end Sys2Proof.Machine
end

section
/-! PROOFS. The display, keypad and timer instructions, and the wait for a key: what a host call and a write to a timer leave unchanged,
the answer taken from a queue, what a step and the resumption do while a key is awaited, and the transitions of the blocked-input state. -/

namespace Sys2Proof.Machine

/-! ## The frame of a write to a timer and to the blocked-input state -/

theorem SameOutside.setDt {regs : List Nibble} {parts : List StatePart} {s t : State} (h : SameOutside regs parts s t)
    (hdt : .dt ∈ parts) (b : Byte) : SameOutside regs parts s (t.setDt b) := by
  refine ⟨h.1, fun p hp => ?_⟩
  cases p
  case dt => exact absurd hdt hp
  all_goals exact h.2 _ hp

theorem SameOutside.setSt {regs : List Nibble} {parts : List StatePart} {s t : State} (h : SameOutside regs parts s t)
    (hst : .st ∈ parts) (b : Byte) : SameOutside regs parts s (t.setSt b) := by
  refine ⟨h.1, fun p hp => ?_⟩
  cases p
  case st => exact absurd hst hp
  all_goals exact h.2 _ hp

theorem SameOutside.setBlk {regs : List Nibble} {parts : List StatePart} {s t : State} (h : SameOutside regs parts s t)
    (hblk : .blk ∈ parts) (b : Blk) : SameOutside regs parts s (t.setBlk b) := by
  refine ⟨h.1, fun p hp => ?_⟩
  cases p
  case blk => exact absurd hblk hp
  all_goals exact h.2 _ hp

/-- An instruction whose only write beside the pc is to the ports leaves the rest. -/
theorem sameOutside_setPorts_setPc (s : State) (p : Ports) (a : Word) : SameOutside [] [.ports] s ((s.setPorts p).setPc a) :=
  ((SameOutside.refl _ _ s).setPorts (List.mem_singleton_self _) p).setPc a

/-! ## Steps while a key is awaited -/

theorem step_of_awaitingKey {s : State} {r : Nibble} (h : s.blk = .awaitingKey r) : step s = .next s := by
  simp only [step, h]

theorem State.transact_step_of_next {s t : State} (h : step s = .next t) : s.transact .step = (t, .ok) := by
  simp only [State.transact, h]

/-- A transaction that leaves a state as it is leaves it so any number of times. -/
theorem State.transactAll_replicate_of_fixed {s : State} {τ : Transaction} (h : (s.transact τ).1 = s) (n : Nat) :
    s.transactAll (List.replicate n τ) = s := by
  induction n with
  | zero => rfl
  | succ n ih => rw [List.replicate_succ, State.transactAll, h, ih]

theorem State.transactAll_append (s : State) (τs υs : List Transaction) :
    s.transactAll (τs ++ υs) = (s.transactAll τs).transactAll υs := by
  induction τs generalizing s with
  | nil => rfl
  | cons τ τs ih => exact ih _

theorem State.transact_step_of_awaitingKey {s : State} {r : Nibble} (h : s.blk = .awaitingKey r) : (s.transact .step).1 = s := by
  rw [State.transact_step_of_next (step_of_awaitingKey h)]

/-- Settles O8: the step stops at the blocked-input state, before the fetch, and repeats so (D20). -/
theorem stepWhileAwaitingKeyChangesNothing : Obligations.StepWhileAwaitingKeyChangesNothing :=
  fun _ _ n h => ⟨step_of_awaitingKey h, State.transactAll_replicate_of_fixed (State.transact_step_of_awaitingKey h) n⟩

/-! ## The resumption -/

theorem State.resumeWithKey_of_awaitingKey {s : State} {r : Nibble} (h : s.blk = .awaitingKey r) (k : Nibble) :
    s.resumeWithKey k = ((s.setV r (k.setWidth 8)).setPc (s.pc + 2)).setBlk .running := by
  simp only [State.resumeWithKey, h]

theorem State.resumeWithKey_of_running {s : State} (h : s.blk = .running) (k : Nibble) : s.resumeWithKey k = s := by
  simp only [State.resumeWithKey, h]

/-- Settles O41: the resumption is one write each to the register, the pc and the blocked-input state. -/
theorem resumeWritesTheKeyAndAdvances : Obligations.ResumeWritesTheKeyAndAdvances := by
  intro s r k hwait
  rw [State.resumeWithKey_of_awaitingKey hwait]
  refine ⟨?key, BitVec.toNat_add s.pc 2, rfl, ?frame⟩
  case key => rw [State.setBlk_getV, State.setPc_getV, State.getV_setV_self, BitVec.toNat_setWidth_of_le (by decide)]
  case frame =>
    exact (((SameOutside.refl _ _ s).setV (List.mem_singleton_self r) _).setPc _).setBlk (List.mem_singleton_self _) _

/-! ## The whole wait -/

/-- Settles O40: LD Vx,K writes the blocked-input state alone, the step changes nothing (O8), and the resumption adds 2 (O41). -/
theorem keyWaitHoldsThePc : Obligations.KeyWaitHoldsThePc := by
  intro x s
  have hwait : (s.setBlk (.awaitingKey x)).blk = .awaitingKey x := rfl
  refine ⟨_, rfl, hwait, rfl, (SameOutside.refl _ _ s).setBlk (List.mem_singleton_self _) _, ?held, fun k => ?resumed⟩
  case held => rw [State.transact_step_of_awaitingKey hwait, State.setBlk_pc]
  case resumed =>
    obtain ⟨-, hpc, -, -⟩ := resumeWritesTheKeyAndAdvances _ x k hwait
    exact hpc

/-- Settles O42: by O8 the steps leave the state in which the wait began, so the resumption of O41 starts from its pc (D11). -/
theorem keyWaitEndsWithTheResumption : Obligations.KeyWaitEndsWithTheResumption := by
  intro x k k' n s
  have hwait : (s.setBlk (.awaitingKey x)).blk = .awaitingKey x := rfl
  obtain ⟨-, hsteps⟩ := stepWhileAwaitingKeyChangesNothing _ x n hwait
  obtain ⟨hkey, hpc, hrunning, -⟩ := resumeWritesTheKeyAndAdvances _ x k hwait
  refine ⟨_, _, rfl, hsteps, ?resumed, hkey, hpc, hrunning, State.resumeWithKey_of_running hrunning k'⟩
  case resumed => rw [State.transactAll_append, hsteps]; rfl

/-! ## The blocked-input state machine (R111, R112) -/

theorem State.loadRom_blk {s t : State} {bs : List Byte} (h : s.loadRom bs = some t) : t.blk = s.blk := by
  unfold State.loadRom at h
  split at h
  · cases h; rfl
  · cases h

/-- A step leaves the blocked-input state, or ran LD Vr,K. -/
theorem step_blk_cases {s t : State} (h : step s = .next t) :
    t.blk = s.blk ∨ ∃ r, FetchReady s ∧ InstrAtPc s (.ldVxK r) ∧ t.blk = .awaitingKey r := by
  rcases step_next_cases h with ⟨r, -, rfl⟩ | ⟨hb, op, i, hf, hd, hi⟩
  · exact .inl rfl
  · by_cases hsame : blkAfter i s = s.blk
    · exact .inl ((exec_blk hi).trans hsame)
    · obtain ⟨r, rfl⟩ := blk_writer hsame
      exact .inr ⟨r, fetchReady_of_fetch hb hf, instrAtPc_of_fetch hf hd, exec_blk hi⟩

/-- A transaction leaves the blocked-input state, begins a wait by a step of LD Vr,K, or runs on by the resumption or the soft reset. -/
theorem State.transact_blk_cases (s : State) (τ : Transaction) :
    (s.transact τ).1.blk = s.blk ∨
    (∃ r, τ = .step ∧ FetchReady s ∧ InstrAtPc s (.ldVxK r) ∧ (s.transact τ).1.blk = .awaitingKey r) ∨
    (((∃ k, τ = .resumeWithKey k) ∨ τ = .softReset) ∧ (s.transact τ).1.blk = .running) := by
  cases τ with
  | loadRom bs =>
    cases hload : s.loadRom bs with
    | none => simp only [State.transact, hload, true_or]
    | some t => simp only [State.transact, hload, State.loadRom_blk hload, true_or]
  | step =>
    cases hstep : step s with
    | next t =>
      rw [State.transact_step_of_next hstep]
      exact (step_blk_cases hstep).imp_right fun ⟨r, hready, hinstr, hblk⟩ => .inl ⟨r, rfl, hready, hinstr, hblk⟩
    | fault e => exact .inl (by rw [State.transact_step_of_fault hstep])
    | refused r => exact .inl (by simp only [State.transact, hstep])
  | tickTimers => exact .inl rfl
  | resumeWithKey k =>
    cases hb : s.blk with
    | running => exact .inl ((congrArg State.blk (State.resumeWithKey_of_running hb k)).trans hb)
    | awaitingKey r => exact .inr (.inr ⟨.inl ⟨k, rfl⟩, congrArg State.blk (State.resumeWithKey_of_awaitingKey hb k)⟩)
  | softReset => exact .inr (.inr ⟨.inr rfl, rfl⟩)

/-- Settles O48: each clause reads the three cases of `State.transact_blk_cases` at its two states; a step begins a wait only from
Running, since it fetches (D13). -/
theorem blockedInputTransitionsAreTheListed : Obligations.BlockedInputTransitionsAreTheListed := by
  intro s τ
  rcases s.transact_blk_cases τ with hsame | ⟨r, rfl, hready, hinstr, hwait⟩ | ⟨hends, hrunning⟩
  · rw [hsame]
    exact ⟨fun r hb hb' => (nomatch hb.symm.trans hb'),
      fun r hb hb' => (nomatch hb.symm.trans hb'), fun r q hb hb' => Blk.awaitingKey.inj (hb.symm.trans hb')⟩
  · have hb : s.blk = .running := hready.1
    rw [hwait, hb]
    refine ⟨fun q _ hq => ?began, nofun, nofun⟩
    case began =>
      obtain rfl := Blk.awaitingKey.inj hq
      exact ⟨rfl, hready, hinstr⟩
  · rw [hrunning]
    exact ⟨nofun, fun _ _ _ => hends, nofun⟩

/-! ## The display -/

/-- Settles O36: the one call is recorded in the ports, which alone are written beside the pc. -/
theorem clearScreenMakesOneCall : Obligations.ClearScreenMakesOneCall :=
  fun s => ⟨_, rfl, rfl, rfl, rfl, rfl, pcMovesBy_advance rfl, sameOutside_setPorts_setPc s _ _⟩

/-- A queued collision is the one taken, and leaves the queue (R133; log 2). -/
theorem State.draw_of_cons {s : State} {c : Bool} {rest : List Bool} (h : s.ports.collisions = c :: rest) (x y : Nat)
    (rows : List Byte) : s.drawAnswer x y rows = c ∧ (s.afterDraw x y rows).ports.collisions = rest := by
  simp only [State.drawAnswer, State.afterDraw, State.setPorts_ports, h, List.tail_cons, and_self]

theorem Memory.readBytes_getElem? (m : Memory) (a n k : Nat) (h : k < n) : (m.readBytes a n)[k]? = some (m.read (a + k)) := by
  simp only [Memory.readBytes, List.getElem?_map, List.getElem?_range h, Option.map_some]

/-- The state after DRW has handed rows over: the call made, its answer in `VF`, the pc moved on (R104). -/
def State.afterDrw (s : State) (x y : Nibble) (rows : List Byte) : State :=
  ((s.afterDraw (s.spriteColumn x) (s.spriteRow y) rows).setV regF
    (flagByte (s.drawAnswer (s.spriteColumn x) (s.spriteRow y) rows))).advance

theorem exec_drw_of_fits {x y n : Nibble} {s : State} (hfit : n.toNat = 0 ∨ s.idxAddr + n.toNat ≤ 4096) :
    exec (.drw x y n) s = .next (s.afterDrw x y (s.mem.readBytes s.idxAddr n.toNat)) := by
  simp only [exec, execDrw, State.memRead_eq, if_pos hfit, State.afterDrw]

theorem exec_drw_of_out {x y n : Nibble} {s : State} (hn : n.toNat ≠ 0) (hout : 4096 < s.idxAddr + n.toNat) :
    exec (.drw x y n) s = .fault (.outOfBounds (if 4096 ≤ s.idxAddr then s.idxAddr else 4096)) := by
  obtain ⟨m, hm⟩ := Nat.exists_eq_succ_of_ne_zero hn
  simp only [exec, execDrw, hm, State.memRead_of_out (show 4096 ≤ s.idxAddr + m by omega), raise]

theorem State.afterDrw_flag (s : State) (x y : Nibble) (rows : List Byte) :
    ((s.afterDrw x y rows).getV 15).toNat =
      if s.drawAnswer (s.spriteColumn x) (s.spriteRow y) rows = true then 1 else 0 := by
  rw [State.afterDrw, ← flagByte_toNat]
  exact congrArg BitVec.toNat (State.setV_advance_getV _ regF _)

/-- DRW writes `VF` and the ports, and the pc. -/
theorem State.afterDrw_frame (s : State) (x y : Nibble) (rows : List Byte) : SameOutside [15] [.ports] s (s.afterDrw x y rows) :=
  (((SameOutside.refl _ _ s).setPorts (List.mem_singleton_self _) _).setV (List.mem_singleton_self _) _).setPc _

/-- Settles O37: the rows are the bytes read at `I`, and `VF` is the answer to the call that hands them over (D7, D19, D28). -/
theorem drawHandsTheSpriteToTheDisplay : Obligations.DrawHandsTheSpriteToTheDisplay := by
  intro x y n s
  refine ⟨fun hfit => ?_, exec_drw_of_out⟩
  refine ⟨_, s.mem.readBytes s.idxAddr n.toNat, exec_drw_of_fits hfit, Memory.readBytes_length _ _ _,
    fun k hk => Memory.readBytes_getElem? _ _ _ k hk, rfl, s.afterDrw_flag x y _, fun c rest hqueue => ?queued, rfl, rfl,
    pcMovesBy_advance rfl, s.afterDrw_frame x y _⟩
  case queued =>
    obtain ⟨hanswer, hrest⟩ := State.draw_of_cons hqueue (s.spriteColumn x) (s.spriteRow y) (s.mem.readBytes s.idxAddr n.toNat)
    rw [State.afterDrw_flag, hanswer]
    exact ⟨rfl, hrest⟩

/-! ## The keypad -/

/-- A queued answer is the one taken, and leaves the queue (R134; log 2). -/
theorem State.pressed_of_cons {s : State} {p : Bool} {rest : List Bool} (h : s.ports.keys = p :: rest) (key : Byte) :
    s.pressedAnswer key = p ∧ (s.afterPressed key).ports.keys = rest := by
  simp only [State.pressedAnswer, State.afterPressed, State.setPorts_ports, h, List.tail_cons, and_self]

/-- An instruction that asks for a key and skips as `skip` makes of the answer moves the pc on by `yes` when the answer is pressed, else
by `no`. -/
theorem skips_on_key {i : Instr} {s : State} {key : Byte} {yes no : Nat} (skip : Bool → Bool)
    (hskip : ∀ p, (if skip p then 4 else 2) = if p = true then yes else no)
    (hexec : exec i s = .next ((s.afterPressed key).skipIf (skip (s.pressedAnswer key)))) :
    ∃ t, exec i s = .next t ∧ PcMovesBy (if s.pressedAnswer key = true then yes else no) s t ∧
      (∀ p rest, s.ports.keys = p :: rest → PcMovesBy (if p = true then yes else no) s t ∧ t.ports.keys = rest) ∧
      t.ports.calls = .isPressed key :: s.ports.calls ∧ t.ports.rng = s.ports.rng ∧
      t.ports.collisions = s.ports.collisions ∧ SameOutside [] [.ports] s t := by
  obtain ⟨hpc, -⟩ := skipIf_moves_pc_only (s := s.afterPressed key) (hskip (s.pressedAnswer key))
  refine ⟨_, hexec, hpc, fun p rest hqueue => ?queued, rfl, rfl, rfl, sameOutside_setPorts_setPc s _ _⟩
  case queued =>
    obtain ⟨hanswer, hrest⟩ := State.pressed_of_cons hqueue key
    exact ⟨hanswer ▸ hpc, hrest⟩

/-- Settles O38: SKP skips on the answer itself, SKNP on its negation (D10, D28). -/
theorem keySkipsFollowTheAnswer : Obligations.KeySkipsFollowTheAnswer := by
  intro x s
  refine ⟨skips_on_key id (fun _ => rfl) rfl, skips_on_key (!·) (fun p => ?_) rfl⟩
  cases p <;> rfl

/-! ## The timers -/

/-- The tone is on exactly when the sound timer is not 0 (R132). -/
theorem State.audioOut_iff (s : State) : s.audioOut = true ↔ s.st.toNat > 0 := by
  rw [State.audioOut, bne_iff_ne, gt_iff_lt, Nat.pos_iff_ne_zero, ne_eq, ne_eq, ← BitVec.toNat_inj]
  rfl

/-- Settles O39: each is one write, to the register or to the timer. -/
theorem timerLoadsAndStores : Obligations.TimerLoadsAndStores := by
  intro x s
  refine ⟨⟨_, rfl, s.setV_advance_getV x s.dt, setV_advance_frame s x _⟩,
    ⟨_, rfl, rfl, pcMovesBy_advance rfl, ?dt⟩, ⟨_, rfl, rfl, State.audioOut_iff _, pcMovesBy_advance rfl, ?st⟩⟩
  case dt => exact ((SameOutside.refl _ _ s).setDt (List.mem_singleton_self _) _).setPc _
  case st => exact ((SameOutside.refl _ _ s).setSt (List.mem_singleton_self _) _).setPc _

end Sys2Proof.Machine
end

section
/-! PROOFS. The errors of a step and the host's transactions (60_exceptions.md R117 to R130): what each transaction keeps of the invariant,
which error each instruction raises and when, and the two timers. -/

namespace Sys2Proof.Machine

/-! ## The invariant of a driven machine -/

theorem State.construct_inv (b : Bool) : (State.construct b).Inv :=
  ⟨⟨List.Pairwise.nil, nofun⟩, Nat.zero_le 16, show (0x200 : Word).toNat ≤ 0x10FE by decide, nofun, fun hwait => absurd rfl hwait⟩

theorem State.placeRom_inv {s : State} {bs : List Byte} (hs : s.Inv) (hfit : Config.loadAddr + bs.length ≤ Config.memSize) :
    (s.placeRom bs).Inv := by
  obtain ⟨hmem, hrest⟩ := hs
  exact ⟨Memory.writeBytes_wf _ _ _ hmem hfit, hrest⟩

/-- A wait is at a pc of at most 0xFFE, so the resumption leaves one of at most 0x1000 (R114). -/
theorem State.resumeWithKey_inv {s : State} {r : Nibble} (hs : s.Inv) (hwait : s.blk = .awaitingKey r) (k : Nibble) :
    (s.resumeWithKey k).Inv := by
  obtain ⟨hmem, hlen, -, hret, hwaitPc⟩ := hs
  have hpc : s.pc.toNat ≤ 0xFFE := hwaitPc (by simp [hwait])
  rw [State.resumeWithKey_of_awaitingKey hwait]
  exact ⟨hmem, hlen, show (s.pc + 2).toNat ≤ 0x10FE by bv_omega, hret, fun hne => absurd rfl hne⟩

theorem State.softReset_inv {s : State} (hs : s.Inv) : s.softReset.Inv := by
  obtain ⟨hmem, -⟩ := hs
  exact ⟨hmem, Nat.zero_le _, by simp [State.softReset], nofun, fun hne => absurd rfl hne⟩

theorem State.transact_inv {s : State} (hs : s.Inv) (τ : Transaction) : (s.transact τ).1.Inv :=
  State.transact_cases (P := State.Inv) hs (fun _ => State.placeRom_inv hs) (fun t => everyStepKeepsTheInvariant s t hs) hs
    (fun _ k hwait => State.resumeWithKey_inv hs hwait k) (State.softReset_inv hs) τ

/-- Settles O51: a load in bounds keeps the canonical memory, a step is O50, the timers are no part of the invariant, and the resumption
and the soft reset leave a small pc; so every sequence from a construction keeps it (D6, D13). -/
theorem everyDrivenMachineMeetsTheInvariant : Obligations.EveryDrivenMachineMeetsTheInvariant :=
  ⟨fun _ τ hs => State.transact_inv hs τ,
    fun b τs => State.transactAll_keeps (P := State.Inv) (fun _ τ hs => State.transact_inv hs τ) τs (State.construct_inv b)⟩

/-! ## The errors of an instruction -/

/-- The errors an instruction itself can raise, each with its condition (R122); an access through `I` records the lowest address out. -/
inductive OwnError (s : State) : Instr → Fault → Prop
  | underflow (hempty : s.stack = []) : OwnError s .ret .stackUnderflow
  | overflow (nnn : Addr12) (hfull : 16 ≤ s.stack.length) : OwnError s (.call nnn) .stackOverflow
  | drw (x y n : Nibble) (hn : n.toNat ≠ 0) (hout : 4096 < s.idxAddr + n.toNat) :
    OwnError s (.drw x y n) (.outOfBounds (if 4096 ≤ s.idxAddr then s.idxAddr else 4096))
  | ldB (x : Nibble) (hout : 4096 ≤ s.idxAddr + 2) :
    OwnError s (.ldB x) (.outOfBounds (if 4096 ≤ s.idxAddr then s.idxAddr else 4096))
  | storeRegs (x : Nibble) (hout : 4096 ≤ s.idxAddr + x.toNat) :
    OwnError s (.storeRegs x) (.outOfBounds (if 4096 ≤ s.idxAddr then s.idxAddr else 4096))
  | loadRegs (x : Nibble) (hout : 4096 ≤ s.idxAddr + x.toNat) :
    OwnError s (.loadRegs x) (.outOfBounds (if 4096 ≤ s.idxAddr then s.idxAddr else 4096))

/-- Every instruction answers a next state or one of its own errors. -/
theorem exec_next_or_ownError (i : Instr) (s : State) :
    (∃ t, exec i s = .next t) ∨ ∃ e, exec i s = .fault e ∧ OwnError s i e := by
  cases i
  case ret =>
    cases hs : s.stack with
    | nil => exact .inr ⟨_, exec_ret_of_nil hs, .underflow hs⟩
    | cons a rest => exact .inl ⟨_, exec_ret_of_cons hs⟩
  case call nnn =>
    rcases Nat.lt_or_ge s.stack.length 16 with hroom | hfull
    · exact .inl ⟨_, exec_call_of_room nnn hroom⟩
    · exact .inr ⟨_, exec_call_of_full nnn hfull, .overflow nnn hfull⟩
  case drw x y n =>
    by_cases hfit : n.toNat = 0 ∨ s.idxAddr + n.toNat ≤ 4096
    · exact .inl ⟨_, exec_drw_of_fits hfit⟩
    · obtain ⟨hn, hout⟩ : n.toNat ≠ 0 ∧ 4096 < s.idxAddr + n.toNat := by omega
      exact .inr ⟨_, exec_drw_of_out hn hout, .drw x y n hn hout⟩
  case ldB x =>
    rcases Nat.lt_or_ge (s.idxAddr + 2) 4096 with hfit | hout
    · exact .inl ⟨_, exec_ldB_of_fits hfit⟩
    · exact .inr ⟨_, exec_ldB_of_out hout, .ldB x hout⟩
  case storeRegs x =>
    rcases Nat.lt_or_ge (s.idxAddr + x.toNat) 4096 with hfit | hout
    · exact .inl ⟨_, exec_storeRegs_of_fits hfit⟩
    · exact .inr ⟨_, exec_storeRegs_of_out hout, .storeRegs x hout⟩
  case loadRegs x =>
    rcases Nat.lt_or_ge (s.idxAddr + x.toNat) 4096 with hfit | hout
    · exact .inl ⟨_, exec_loadRegs_of_fits hfit⟩
    · exact .inr ⟨_, exec_loadRegs_of_out hout, .loadRegs x hout⟩
  all_goals exact .inl ⟨_, rfl⟩

theorem ownError_of_exec_fault {i : Instr} {s : State} {e : Fault} (h : exec i s = .fault e) : OwnError s i e := by
  rcases exec_next_or_ownError i s with ⟨t, ht⟩ | ⟨e', he', hown⟩
  · exact nomatch h.symm.trans ht
  · obtain rfl : e = e' := by injection h.symm.trans he'
    exact hown

theorem exec_ne_refused (i : Instr) (s : State) (r : Refusal) : exec i s ≠ .refused r := by
  intro h
  rcases exec_next_or_ownError i s with ⟨t, ht⟩ | ⟨e, he, -⟩
  · exact nomatch h.symm.trans ht
  · exact nomatch h.symm.trans he

/-- Settles O11: a step refuses only where an instruction does, and none does. -/
theorem nothingIsRefused : Obligations.NothingIsRefused := by
  refine ⟨fun s r h => ?_, exec_ne_refused⟩
  obtain ⟨i, hi⟩ := step_refused_cases h
  exact exec_ne_refused i s r hi

/-! ## The errors of a step -/

theorem State.fetch_error {s : State} {e : Fault} (h : s.fetch = .error e) :
    4095 ≤ s.pc.toNat ∧ e = .outOfBounds (max s.pc.toNat 4096) := by
  rw [State.fetch_eq] at h
  split at h
  · cases h
  · injection h with h; exact ⟨by omega, h.symm⟩

theorem opcodeAtPc_lt (s : State) : opcodeAtPc s < 65536 := by
  have hhigh := (s.readByte s.pc.toNat).isLt
  have hlow := (s.readByte (s.pc.toNat + 1)).isLt
  unfold opcodeAtPc; omega

theorem ofNat_opcodeAtPc_toNat (s : State) : (BitVec.ofNat 16 (opcodeAtPc s)).toNat = opcodeAtPc s :=
  (BitVec.toNat_ofNat _ _).trans (Nat.mod_eq_of_lt (opcodeAtPc_lt s))

/-- The decoder rejects the opcode at the pc exactly when R64's table has it. -/
theorem decodeWord_opcodeAtPc_error_iff (s : State) :
    decodeWord (BitVec.ofNat 16 (opcodeAtPc s)) = .error (.unimplementedOpcode (BitVec.ofNat 16 (opcodeAtPc s))) ↔
      UnimplementedWord (opcodeAtPc s) := by
  rw [decoderRejectsExactlyTheUnimplementedSpace, ofNat_opcodeAtPc_toNat]

theorem lowest_out_eq_max (a : Nat) : (if 4096 ≤ a then a else 4096) = max a 4096 := by
  rw [Nat.max_comm, Nat.max_def]

/-- Settles O10: the error is the fetch's, the decoder's or the instruction's (`step_fault_cases`), and the instruction's are those of
`OwnError` (D7, D15). -/
theorem stepErrorsAreThoseOfTheList : Obligations.StepErrorsAreThoseOfTheList := by
  intro s e h
  obtain ⟨hb, hfetch | ⟨op, hf, herr⟩⟩ := step_fault_cases h
  · exact ⟨hb, .inl (State.fetch_error hfetch)⟩
  have hpc : s.pc.toNat < 4095 := Nat.lt_succ_of_le (State.pc_le_of_fetch_ok hf)
  refine ⟨hb, .inr ?_⟩
  rcases herr with ⟨d, hd, rfl⟩ | ⟨i, hd, hi⟩
  · obtain rfl := State.fetch_ok_opcodeAtPc hf
    obtain rfl := decodeWord_error_eq hd
    exact .inl ⟨hpc, (decodeWord_opcodeAtPc_error_iff s).1 hd, rfl⟩
  · have hat := instrAtPc_of_fetch hf hd
    have haddr := congrArg Fault.outOfBounds (lowest_out_eq_max s.idxAddr)
    cases ownError_of_exec_fault hi with
    | underflow hempty => exact .inr (.inl ⟨hpc, hat, hempty, rfl⟩)
    | overflow nnn hfull => exact .inr (.inr (.inl ⟨hpc, ⟨nnn, hat⟩, hfull, rfl⟩))
    | drw x y n _ _ => exact .inr (.inr (.inr ⟨hpc, haddr, .inl ⟨x, y, n, hat⟩⟩))
    | ldB x _ => exact .inr (.inr (.inr ⟨hpc, haddr, .inr (.inl ⟨x, hat⟩)⟩))
    | storeRegs x _ => exact .inr (.inr (.inr ⟨hpc, haddr, .inr (.inr (.inl ⟨x, hat⟩))⟩))
    | loadRegs x _ => exact .inr (.inr (.inr ⟨hpc, haddr, .inr (.inr (.inr ⟨x, hat⟩))⟩))

theorem step_of_unimplementedWord {s : State} (hready : FetchReady s) (hword : UnimplementedWord (opcodeAtPc s)) :
    step s = .fault (.unimplementedOpcode (BitVec.ofNat 16 (opcodeAtPc s)) s.pc) := by
  have hrunning : s.blk = .running := hready.1
  simp only [step, hrunning, State.fetch_of_fetchReady hready, (decodeWord_opcodeAtPc_error_iff s).2 hword, raise]

/-- Settles O9: of O10's errors one alone is UnimplementedOpcode, and such a word at a pc that is fetched from raises it (D3, D4). -/
theorem stepRaisesUnimplementedExactlyForItsWords : Obligations.StepRaisesUnimplementedExactlyForItsWords := by
  intro s op pc
  constructor
  · intro h
    obtain ⟨hb, ⟨-, he⟩ | ⟨hpc, hword, he⟩ | ⟨-, -, -, he⟩ | ⟨-, -, -, he⟩ | ⟨-, he, -⟩⟩ :=
      stepErrorsAreThoseOfTheList s _ h <;> cases he
    exact ⟨⟨hb, Nat.succ_lt_succ hpc⟩, ofNat_opcodeAtPc_toNat s, rfl, hword⟩
  · rintro ⟨hready, hop, rfl, hword⟩
    obtain rfl : BitVec.ofNat 16 (opcodeAtPc s) = op := BitVec.eq_of_toNat_eq ((ofNat_opcodeAtPc_toNat s).trans hop.symm)
    exact step_of_unimplementedWord hready hword

/-- Settles O12: O10's recorded addresses are the greater of 4096 and the pc or `I`, a 16-bit value. -/
theorem recordedAddressLiesBetween4096And65535 : Obligations.RecordedAddressLiesBetween4096And65535 := by
  intro s a h
  have hpc := s.pc.isLt
  have hidx := s.idx.isLt
  obtain ⟨-, ⟨-, he⟩ | ⟨-, -, he⟩ | ⟨-, -, -, he⟩ | ⟨-, -, -, he⟩ | ⟨-, he, -⟩⟩ :=
    stepErrorsAreThoseOfTheList s _ h <;> cases he <;> omega

/-- Settles O13: the raising step leaves the state, so each further step starts from it again (D6). -/
theorem errorLeavesTheStateAndRepeats : Obligations.ErrorLeavesTheStateAndRepeats := by
  intro s e n h
  have hstep := State.transact_step_of_fault h
  have hsame : s.transactAll (List.replicate n .step) = s :=
    State.transactAll_replicate_of_fixed (by rw [hstep]) n
  exact ⟨hsame, hsame.symm ▸ hstep⟩

/-! ## The timers -/

theorem decTimer_toNat (b : Byte) : (decTimer b).toNat = if b.toNat > 0 then b.toNat - 1 else 0 := by
  unfold decTimer
  split
  · next h => simp [h]
  · next h =>
    have hpos : b.toNat > 0 := by bv_omega
    rw [if_pos hpos]; bv_omega

/-- Settles O43: the tick is one write to each timer, and never looks at the blocked-input state. -/
theorem tickDecrementsTimersToZero : Obligations.TickDecrementsTimersToZero := by
  intro s
  refine ⟨_, rfl, decTimer_toNat s.dt, decTimer_toNat s.st, rfl, ?frame⟩
  case frame => exact ((SameOutside.refl _ _ s).setDt (by simp) _).setSt (by simp) _

end Sys2Proof.Machine
end

section
/-! PROOFS. The host display (60_exceptions.md R133): which pixels a sprite covers, what a draw flips and when it collides, and that a draw
undoes itself. -/

namespace Sys2Proof.Machine

/-! ## The covered pixels -/

/-- Bit 7 of a row byte is its leftmost, and past its eight bits there is none (G5). -/
theorem rowBitAt_eq (b : Byte) (j : Nat) : rowBitAt b j = (decide (j < 8) && b.getMsbD j) := by
  simp [rowBitAt, BitVec.getMsbD]

/-- The rows hold a byte at `k` exactly when `k` is in range, and its bit is then the one `covers` looks at. -/
theorem spriteRowBits_getMsbD {edge : DisplayEdge} {x y : Nat} {rows : List Byte} {px py : Nat} (hx : x < 64) (hpx : px < 64) :
    (spriteRowBits edge x y rows py).getMsbD px = covers edge x y rows px py := by
  cases edge with
  | clip =>
    by_cases hy : y ≤ py
    · by_cases hin : py - y < rows.length
      · simp [spriteRowBits, spriteByteOn, covers, hy, hin, spriteBits_getMsbD _ _ _ _ hx hpx, rowBitAt_eq]
      · simp [spriteRowBits, spriteByteOn, covers, hy, hin]
    · simp [spriteRowBits, spriteByteOn, covers, hy]
  | wrap =>
    by_cases hin : (py + 32 - y) % 32 < rows.length
    · simp [spriteRowBits, spriteByteOn, covers, hin, spriteBits_getMsbD _ _ _ _ hx hpx, rowBitAt_eq, Config.displayH]
    · simp [spriteRowBits, spriteByteOn, covers, hin, Config.displayH]

theorem Grid.draw_pixel (g : Grid) {edge : DisplayEdge} {x y : Nat} {rows : List Byte} {px py : Nat} (hx : x < 64) (hpx : px < 64)
    (hpy : py < 32) : (g.draw edge x y rows).pixel px py = (g.pixel px py ^^ covers edge x y rows px py) := by
  rw [Grid.pixel, Grid.draw_getD _ _ _ _ _ _ hpy, BitVec.getMsbD_xor, spriteRowBits_getMsbD hx hpx, Grid.pixel]

/-! ## Collisions -/

theorem row_ne_zero_iff (v : BitVec 64) : v ≠ 0 ↔ ∃ px, px < 64 ∧ v.getMsbD px = true := by
  constructor
  · intro hne
    by_contra hnone
    refine hne (BitVec.eq_of_getMsbD_eq fun px hpx => ?_)
    simp only [not_exists, not_and, Bool.not_eq_true] at hnone
    exact (hnone px hpx).trans BitVec.getMsbD_zero.symm
  · rintro ⟨px, -, hbit⟩ rfl
    simp at hbit

/-- A draw collides exactly when it covers a pixel that is set. -/
theorem Grid.collides_iff (g : Grid) {edge : DisplayEdge} {x y : Nat} {rows : List Byte} (hx : x < 64) :
    g.collides edge x y rows = true ↔
      ∃ px py, px < 64 ∧ py < 32 ∧ g.pixel px py = true ∧ covers edge x y rows px py = true := by
  simp only [Grid.collides, List.any_eq_true, List.mem_range, bne_iff_ne, row_ne_zero_iff, BitVec.getMsbD_and, Bool.and_eq_true]
  constructor
  · rintro ⟨py, hpy, px, hpx, hset, hcov⟩
    exact ⟨px, py, hpx, hpy, hset, spriteRowBits_getMsbD hx hpx ▸ hcov⟩
  · rintro ⟨px, py, hpx, hpy, hset, hcov⟩
    exact ⟨py, hpy, px, hpx, hset, (spriteRowBits_getMsbD hx hpx).trans hcov⟩

/-- Settles O58: a covered pixel is flipped, so it goes from set to unset exactly when it was set (G5, D18). -/
theorem drawFlipsTheCoveredPixels : Obligations.DrawFlipsTheCoveredPixels := by
  intro g edge x y rows hx _ _
  refine ⟨fun px py hpx hpy => g.draw_pixel hx hpx hpy, ?collision⟩
  case collision =>
    rw [g.collides_iff hx]
    refine exists_congr fun px => exists_congr fun py => and_congr_right fun hpx => and_congr_right fun hpy =>
      and_congr_right fun hset => ?_
    rw [g.draw_pixel hx hpx hpy, hset, Bool.true_xor, Bool.not_eq_false']

/-! ## Drawing twice -/

theorem Grid.draw_draw (g : Grid) (edge : DisplayEdge) (x y : Nat) (rows : List Byte) :
    (g.draw edge x y rows).draw edge x y rows = g := by
  refine Vector.ext fun py hpy => ?_
  simp only [Grid.draw, Vector.getElem_ofFn, Fin.getElem_fin, BitVec.xor_assoc, BitVec.xor_self, BitVec.xor_zero]

theorem Grid.blank_row (py : Nat) : Grid.blank.toList.getD py 0 = 0 := by
  rw [Grid.blank, Vector.toList_replicate, List.getD_eq_getElem?_getD, List.getElem?_getD_replicate_default_eq]

theorem Grid.blank_collides (edge : DisplayEdge) (x y : Nat) (rows : List Byte) : Grid.blank.collides edge x y rows = false := by
  rw [Grid.collides, List.any_eq_false]
  intro py _
  rw [Grid.blank_row]; simp

/-- Settles O59: each row is composed by XOR with the same bits twice, and a blank row has no bit in common with a sprite. -/
theorem drawTwiceRestoresTheDisplay : Obligations.DrawTwiceRestoresTheDisplay :=
  fun g edge x y rows => ⟨g.draw_draw edge x y rows, Grid.blank_collides edge x y rows⟩

end Sys2Proof.Machine
end

section
/-! PROOFS. Reset and hazards (70_reset_and_hazards.md R141 to R145): what construction, the ROM Loader and the soft reset leave in the
registers and in memory. -/

namespace Sys2Proof.Machine

/-! ## The ROM Loader (R143, R144) -/

theorem State.transact_loadRom_of_fits {bs : List Byte} (s : State) (hfit : Config.loadAddr + bs.length ≤ Config.memSize) :
    s.transact (.loadRom bs) = (s.placeRom bs, .accepted) := by
  simp only [State.transact, State.loadRom, if_pos hfit]

theorem State.transact_loadRom_of_overruns {bs : List Byte} (s : State) (hover : Config.memSize < Config.loadAddr + bs.length) :
    s.transact (.loadRom bs) = (s, .rejected) := by
  simp only [State.transact, State.loadRom, if_neg (Nat.not_le.2 hover)]

theorem State.placeRom_readByte_loaded (s : State) {bs : List Byte} {k : Nat} (hk : k < bs.length) :
    (s.placeRom bs).readByte (Config.loadAddr + k) = bs[k] := by
  have hin : Config.loadAddr ≤ Config.loadAddr + k ∧ Config.loadAddr + k < Config.loadAddr + bs.length := by omega
  rw [State.readByte, State.placeRom, State.setMem_mem, Memory.read_writeBytes, if_pos hin, Nat.add_sub_cancel_left,
    List.getD_eq_getElem _ _ hk]

theorem State.placeRom_sameBytesOutside (s : State) (bs : List Byte) :
    SameBytesOutside Config.loadAddr bs.length s (s.placeRom bs) := by
  intro k hout
  have hnotin : ¬ (Config.loadAddr ≤ k ∧ k < Config.loadAddr + bs.length) := by omega
  rw [State.readByte, State.placeRom, State.setMem_mem, Memory.read_writeBytes, if_neg hnotin, State.readByte]

/-- Settles O44: an accepted load is one write of the bytes from the load address on, and writes no other part of the state. -/
theorem romLoadWritesTheProgram : Obligations.RomLoadWritesTheProgram := by
  refine fun s bs => ⟨fun hfit => ⟨s.placeRom bs, s.transact_loadRom_of_fits hfit, ?loaded, s.placeRom_sameBytesOutside bs, rfl, ?frame⟩,
    fun hover => congrArg Prod.snd (s.transact_loadRom_of_overruns hover)⟩
  case loaded =>
    intro k hk
    exact (List.getElem?_eq_getElem hk).trans (congrArg some (s.placeRom_readByte_loaded hk).symm)
  case frame => exact (SameOutside.refl _ _ s).setMem (List.mem_singleton_self _) _

/-- Settles O45: 3584 bytes from 0x200 end at the end of memory, and one more overruns it (D25). -/
theorem rejectedRomChangesNothing : Obligations.RejectedRomChangesNothing := by
  refine fun s bs => ⟨fun hlong => s.transact_loadRom_of_overruns ?overruns,
    fun hlen => congrArg Prod.snd (s.transact_loadRom_of_fits ?fits)⟩
  case overruns => simp only [Config.memSize, Config.loadAddr]; omega
  case fits => simp only [Config.memSize, Config.loadAddr]; omega

/-! ## The soft reset (R145) -/

theorem State.softReset_getV (s : State) (r : Nibble) : s.softReset.getV r = 0 := Vector.getElem_replicate _

/-- Settles O46: the soft reset is one write to the five parts; the others stand as they were (D13). -/
theorem softResetKeepsMemoryAndTimers : Obligations.SoftResetKeepsMemoryAndTimers :=
  fun s => ⟨s.softReset, rfl, s.softReset_getV, rfl, rfl, rfl, rfl, rfl, rfl, rfl, rfl, rfl⟩

/-! ## Construction (R141) -/

theorem State.construct_getV (b : Bool) (r : Nibble) : (State.construct b).getV r = 0 := Vector.getElem_replicate _

/-- A constructed machine lists no cell, so each reads as its reset contents (R22). -/
theorem State.construct_readByte (b : Bool) (a : Nat) : (State.construct b).readByte a = resetByte a := rfl

theorem resetByte_of_length_font_le {a : Nat} (ha : font.length ≤ a) : resetByte a = 0 := List.getD_eq_default _ _ ha

theorem State.construct_readBytes_font (b : Bool) : (State.construct b).mem.readBytes 0 font.length = font := by
  refine List.ext_getElem (Memory.readBytes_length _ _ _) fun k hread hfont => ?_
  calc ((State.construct b).mem.readBytes 0 font.length)[k]
      = (State.construct b).readByte (0 + k) := by simp only [Memory.readBytes, List.getElem_map, List.getElem_range, State.readByte]
    _ = font.getD k 0 := by rw [State.construct_readByte, Nat.zero_add, resetByte]
    _ = font[k] := List.getD_eq_getElem _ _ hfont

/-- Settles O47: memory reads as `font`, whose 80 bytes are the listed ones, and as zeros beyond it; every other part is the literal
`construct` writes (G3, D12). -/
theorem constructionGivesTheInitialState : Obligations.ConstructionGivesTheInitialState :=
  fun b => ⟨State.construct_readBytes_font b,
    fun a ha _ => (State.construct_readByte b a).trans (resetByte_of_length_font_le ha),
    State.construct_getV b, rfl, rfl, rfl, rfl, rfl, rfl, rfl⟩

/-- Settles O49: `State.construct_inv`, and the reset state is a construction. -/
theorem constructionMeetsTheInvariant : Obligations.ConstructionMeetsTheInvariant :=
  ⟨State.construct_inv, State.construct_inv false⟩

end Sys2Proof.Machine
end
